-- ==== Sys2Proof/Word.lean ====
section
/-! DEFINITION. The word types of the block (00_scope.md R6, R8, R9): plain bit vectors, unsigned, bit 0 the least significant. -/

namespace Sys2Proof

/-- An 8-bit value: register slot, memory cell, staging byte, immediate (R9). -/
abbrev Byte := BitVec 8

/-- A 4-bit field: half of a byte (R13 "Nibble"). -/
abbrev Nibble := BitVec 4

/-- A register index, 0x0 to 0xF (R21). -/
abbrev RegIdx := BitVec 4

/-- A 16-bit address of ROM or RAM, and the value of pc (R32, R51). -/
abbrev Addr := BitVec 16

end Sys2Proof
end

