-- ==== Sys2Proof/Config.lean ====
section
/-! DEFINITION. The named parameters of 00_scope.md R7, each as plain data that a machine carries (log 1). Their
default values, the spec's own, stand in Decode.lean (SUBSEL) and Machine/Defaults.lean (all others), so that a later
repair can mend them. The block has no free value: 93_implementation_defined.md, end of part 1. -/

namespace Sys2Proof

/-- `SUBSEL` (R86): the low nibble that picks each instruction of families 0x0 (stop, ret, pcall), 0x1 (push, sto,
cmp) and 0xE (jmp, call, jz, jn, jc, jo). -/
structure SubSel where
  stop : Nibble
  ret : Nibble
  pcall : Nibble
  push : Nibble
  sto : Nibble
  cmp : Nibble
  jmp : Nibble
  call : Nibble
  jz : Nibble
  jn : Nibble
  jc : Nibble
  jo : Nibble
  deriving DecidableEq, Repr

/-- `FLAG_BITPOS` (R35): the bit of the flags byte that holds each flag. Only the host's read-out shows it. -/
structure FlagPos where
  z : Fin 8
  c : Fin 8
  o : Fin 8
  n : Fin 8
  deriving DecidableEq, Repr

/-- `PCALL_TARGET` (R7, R224): where PCALL transfers to. The values other than the default pair are a DESIGN CHOICE
(log 3). -/
inductive PcallTarget where
  /-- the value `x[hi] ++ x[lo]`, read raw at micro-step 5; the default is (0xE, 0xF), that is rbnk ++ radr (D10) -/
  | registerPair (hi lo : RegIdx)
  /-- a fixed address -/
  | address (t : Addr)
  deriving DecidableEq, Repr

/-- `STIDX_SOURCE` (R7, R183, D11): which register the indexed store writes to memory. -/
inductive StidxSource where
  /-- the register in the opcode's low nibble: the default -/
  | embedded
  /-- the raw slot x[0x0], the alternative that R183 names -/
  | ra
  deriving DecidableEq, Repr

/-- `UNRECOGNIZED_MODE` (R7, R129, D14): what an opcode with an unassigned sub-selector does. The source leaves open
whether its no-op handler reports completion. -/
inductive UnrecognizedMode where
  /-- one execute micro-step that changes nothing and completes: the default -/
  | noop
  /-- the handler never reports completion; a DESIGN CHOICE (log 15) -/
  | neverCompletes
  deriving DecidableEq, Repr

/-- The names of the 25 instructions, for a condition of `SINK_TRIGGER` that names a qualifying instruction (R261). -/
inductive Mnemonic where
  | stop
  | ret
  | pcall
  | push
  | sto
  | cmp
  | pop
  | ldrom
  | add
  | adc
  | stidx
  | sub
  | sbc
  | ldidx
  | imm
  | nand
  | iadd
  | isub
  | jmp
  | call
  | jz
  | jn
  | jc
  | jo
  | ldram
  deriving DecidableEq, Repr

/-- What a condition of `SINK_TRIGGER` can look at as a number, in an execute micro-step that writes a byte: the byte, and
the state that the micro-step starts from (R261; log 3). -/
inductive SinkSource where
  /-- the byte written -/
  | byte
  /-- k, the micro-step (R43) -/
  | microStep
  | pc
  /-- the raw slot x[i] -/
  | reg (i : RegIdx)
  | flagZ
  | flagC
  | flagO
  | flagN
  /-- stage[j], the instruction's bytes with its operand fields -/
  | staged (j : Fin 3)
  | rom (a : Addr)
  | ram (a : Addr)
  deriving DecidableEq, Repr

/-- "A condition on an execute micro-step" (R261), as plain data. The combinations of these tests are all the conditions
that there are on the write, the instruction and the state of the block (log 3). -/
inductive SinkCond where
  /-- the value is from first to last, both included -/
  | within (x : SinkSource) (first last : Nat)
  /-- it is a RamWrite to an address from first to last, both included; R261's example has first = last = A -/
  | ramWriteIn (first last : Addr)
  /-- it writes the register slot x[i] -/
  | registerWrite (i : RegIdx)
  /-- it belongs to this instruction: R261's "qualifying instruction" -/
  | instruction (m : Mnemonic)
  | not (c : SinkCond)
  | and (c d : SinkCond)
  | or (c d : SinkCond)
  deriving DecidableEq, Repr

/-- `SINK_TRIGGER` (R7, R261, D19): which execute micro-steps call `sink.receive`. -/
inductive SinkTrigger where
  /-- no instruction calls the sink: the default -/
  | none
  /-- every execute micro-step that writes a byte and meets the condition calls it once, with that byte (log 3) -/
  | writeWhen (c : SinkCond)
  deriving DecidableEq, Repr

/-- All the parameters of R7, under their names there. -/
structure Params where
  /-- `SUBSEL` -/
  subSel : SubSel
  /-- `READABLE` -/
  readable : List RegIdx
  /-- `WRITABLE` -/
  writable : List RegIdx
  /-- `RESERVED_READ_VALUE` -/
  reservedReadValue : Byte
  /-- `FLAG_BITPOS` -/
  flagPos : FlagPos
  /-- `SUB_IS_ADDITIVE` -/
  subIsAdditive : Bool
  /-- `NAND_SETS_FLAGS` -/
  nandSetsFlags : Bool
  /-- `PCALL_TARGET` -/
  pcallTarget : PcallTarget
  /-- `STIDX_SOURCE` -/
  stidxSource : StidxSource
  /-- `UNRECOGNIZED_MODE` -/
  unrecognizedMode : UnrecognizedMode
  /-- `SINK_TRIGGER` -/
  sinkTrigger : SinkTrigger
  deriving DecidableEq, Repr

end Sys2Proof
end

