-- ==== Sys2Proof/Syntax.lean ====
section
/-! DEFINITION. The 25 instructions of 30_encoding.md R84, one constructor for each row of spec/opcode_table.json, with the
operand fields of R82. The don't-care nibbles of R83 are no operand. -/

namespace Sys2Proof

/-- An instruction with its operand fields. `d` is the register in the opcode's low nibble (for STIDX the stored one,
D11), `a`, `b`, `r`, `x`, `y` are the register fields of the second byte, `i` the imm8, `t` the 16-bit target (R82). -/
inductive Instr where
  /-- `stop` (R205) -/
  | stop
  /-- `ret` (R225) -/
  | ret
  /-- `pcall` (R224) -/
  | pcall
  /-- `push r` (R221) -/
  | push (r : RegIdx)
  /-- `sto r` (R180) -/
  | sto (r : RegIdx)
  /-- `cmp a b` (R157) -/
  | cmp (a b : RegIdx)
  /-- `pop d` (R222) -/
  | pop (d : RegIdx)
  /-- `ldrom d` (R181) -/
  | ldrom (d : RegIdx)
  /-- `add d a b` (R151) -/
  | add (d a b : RegIdx)
  /-- `adc d a b` (R152) -/
  | adc (d a b : RegIdx)
  /-- `stidx a x y` (R183) -/
  | stidx (a x y : RegIdx)
  /-- `sub d a b` (R154) -/
  | sub (d a b : RegIdx)
  /-- `sbc d a b` (R155) -/
  | sbc (d a b : RegIdx)
  /-- `ldidx d x y` (R184) -/
  | ldidx (d x y : RegIdx)
  /-- `imm d i` (R159) -/
  | imm (d : RegIdx) (i : Byte)
  /-- `nand d a b` (R158) -/
  | nand (d a b : RegIdx)
  /-- `iadd d a i` (R153) -/
  | iadd (d a : RegIdx) (i : Byte)
  /-- `isub d a i` (R156) -/
  | isub (d a : RegIdx) (i : Byte)
  /-- `jmp t` (R200) -/
  | jmp (t : Addr)
  /-- `call t` (R223) -/
  | call (t : Addr)
  /-- `jz t` (R201) -/
  | jz (t : Addr)
  /-- `jn t` (R202) -/
  | jn (t : Addr)
  /-- `jc t` (R203) -/
  | jc (t : Addr)
  /-- `jo t` (R204) -/
  | jo (t : Addr)
  /-- `ldram d` (R182) -/
  | ldram (d : RegIdx)
  deriving DecidableEq, Repr

end Sys2Proof
end

