-- ==== Sys2Proof/WellFormed.lean ====
section
/-! DEFINITION. The checks that the spec puts on plain data: SUBSEL distinct within a family (R86), the flag positions
independent (R35), and the register names the assembler accepts (R22, R96). An instruction needs no other check: the
field widths are types, and "No encoding is illegal and none traps" (R87). -/

namespace Sys2Proof

/-- R86 "the values within each family are distinct". -/
abbrev SubSel.Distinct (q : SubSel) : Prop :=
  [q.stop, q.ret, q.pcall].Nodup ∧ [q.push, q.sto, q.cmp].Nodup ∧
    [q.jmp, q.call, q.jz, q.jn, q.jc, q.jo].Nodup

/-- R35 "four independent flag bits": no two flags share a bit of the flags byte. -/
abbrev FlagPos.Distinct (f : FlagPos) : Prop := [f.z, f.c, f.o, f.n].Nodup

/-- The parameters meet the constraints that the spec puts on them. -/
abbrev Params.WellFormed (p : Params) : Prop := p.subSel.Distinct ∧ p.flagPos.Distinct

/-- The indices that have a name (R21): ra, rb, rc, rsp, rbp, rbnk, radr. -/
def namedRegs : List RegIdx := [0x0, 0x1, 0x2, 0xA, 0xB, 0xE, 0xF]

/-- The register fields of an instruction, in assembly order (R90). -/
def Instr.regFields : Instr → List RegIdx
  | .stop => []
  | .ret => []
  | .pcall => []
  | .push r => [r]
  | .sto r => [r]
  | .cmp a b => [a, b]
  | .pop d => [d]
  | .ldrom d => [d]
  | .add d a b => [d, a, b]
  | .adc d a b => [d, a, b]
  | .stidx a x y => [a, x, y]
  | .sub d a b => [d, a, b]
  | .sbc d a b => [d, a, b]
  | .ldidx d x y => [d, x, y]
  | .imm d _ => [d]
  | .nand d a b => [d, a, b]
  | .iadd d a _ => [d, a]
  | .isub d a _ => [d, a]
  | .jmp _ => []
  | .call _ => []
  | .jz _ => []
  | .jn _ => []
  | .jc _ => []
  | .jo _ => []
  | .ldram d => [d]

/-- The assembler can emit this instruction: every register field has a name (R22, R96). A hand-built byte can carry
any index, so the machine runs the others as well (R87, R105). -/
abbrev Instr.Assemblable (i : Instr) : Prop := ∀ r ∈ i.regFields, r ∈ namedRegs

end Sys2Proof
end

