-- ==== Sys2Proof/Decode.lean ====
section
/-! DEFINITION. Instruction lengths, the decoder (30_encoding.md R80 to R89), the encoder written from the same table (R81, R90),
and the default SUBSEL (R86). -/

namespace Sys2Proof

/-- The default `SUBSEL` of R86, the spec's own assignment (D1; UNVERIFIED, log 2). -/
def defaultSubSel : SubSel where
  stop := 0x0
  ret := 0x1
  pcall := 0x2
  push := 0x0
  sto := 0x1
  cmp := 0x2
  jmp := 0x0
  call := 0x1
  jz := 0x2
  jn := 0x3
  jc := 0x4
  jo := 0x5

/-- `v[7:4]` (R8). -/
def hiNibble (v : Byte) : Nibble := v.extractLsb' 4 4

/-- `v[3:0]` (R8). -/
def loNibble (v : Byte) : Nibble := v.extractLsb' 0 4

/-- A byte of two nibbles, the first in the high half (R101). -/
def packNibbles (hi lo : Nibble) : Byte := hi ++ lo

/-- `hi ++ lo`, that is `hi * 256 + lo` (R10). -/
def catBytes (hi lo : Byte) : Addr := hi ++ lo

/-- `v[15:8]` of a 16-bit value. -/
def highByte (v : Addr) : Byte := v.extractLsb' 8 8

/-- `v[7:0]` of a 16-bit value. -/
def lowByte (v : Addr) : Byte := v.extractLsb' 0 8

/-- `LEN(f)`: the length in bytes of an instruction of family `f` (R80). -/
def instrLen (f : Nibble) : Nat :=
  if f ∈ ([0x0, 0x2, 0x3, 0xF] : List Nibble) then 1
  else if f ∈ ([0xC, 0xD, 0xE] : List Nibble) then 3
  else 2

/-- Why bytes are no instruction of the table. -/
inductive DecodeError where
  /-- R85 UNRECOGNIZED: an unassigned sub-selector in family 0x0, 0x1 or 0xE. The block runs such an opcode as a no-op (R129). -/
  | unrecognized (opcode : Byte)
  /-- Fewer bytes than the family's length. Only a list of bytes can end early: the block's fetch never does. -/
  | truncated
  deriving DecidableEq, Repr

/-- R85 for the three bytes of the staging buffer, with the operand fields of R82. Bytes past the family's length and
the don't-care nibbles (R83) are not looked at. -/
def decodeStage (q : SubSel) (b0 b1 b2 : Byte) : Except DecodeError Instr :=
  let n := loNibble b0
  let a := hiNibble b1
  let b := loNibble b1
  let t := catBytes b1 b2
  match (hiNibble b0).toNat with
  | 0x0 =>
    if n = q.stop then .ok .stop
    else if n = q.ret then .ok .ret
    else if n = q.pcall then .ok .pcall
    else .error (.unrecognized b0)
  | 0x1 =>
    if n = q.push then .ok (.push a)
    else if n = q.sto then .ok (.sto a)
    else if n = q.cmp then .ok (.cmp a b)
    else .error (.unrecognized b0)
  | 0x2 => .ok (.pop n)
  | 0x3 => .ok (.ldrom n)
  | 0x4 => .ok (.add n a b)
  | 0x5 => .ok (.adc n a b)
  | 0x6 => .ok (.stidx n a b)
  | 0x7 => .ok (.sub n a b)
  | 0x8 => .ok (.sbc n a b)
  | 0x9 => .ok (.ldidx n a b)
  | 0xA => .ok (.imm n b1)
  | 0xB => .ok (.nand n a b)
  | 0xC => .ok (.iadd n a b2)
  | 0xD => .ok (.isub n a b2)
  | 0xE =>
    if n = q.jmp then .ok (.jmp t)
    else if n = q.call then .ok (.call t)
    else if n = q.jz then .ok (.jz t)
    else if n = q.jn then .ok (.jn t)
    else if n = q.jc then .ok (.jc t)
    else if n = q.jo then .ok (.jo t)
    else .error (.unrecognized b0)
  | _ => .ok (.ldram n)  -- 0xF, the one family left of a 4-bit field

/-- Decode the instruction at the head of a list of bytes; answer it with the bytes after it. The first byte alone
fixes the length (R88). -/
def decode (q : SubSel) (bytes : List Byte) : Except DecodeError (Instr × List Byte) :=
  match bytes with
  | [] => .error .truncated
  | b0 :: rest =>
    let more := instrLen (hiNibble b0) - 1
    if rest.length < more then .error .truncated
    else
      match decodeStage q b0 (rest.getD 0 0) (rest.getD 1 0) with
      | .ok i => .ok (i, rest.drop more)
      | .error e => .error e

/-- The bytes of an instruction (R81, R90), with `x` in the don't-care nibble where its format has one (R83). -/
def encodeWith (q : SubSel) (x : Nibble) : Instr → List Byte
  | .stop => [packNibbles 0x0 q.stop]
  | .ret => [packNibbles 0x0 q.ret]
  | .pcall => [packNibbles 0x0 q.pcall]
  | .push r => [packNibbles 0x1 q.push, packNibbles r x]
  | .sto r => [packNibbles 0x1 q.sto, packNibbles r x]
  | .cmp a b => [packNibbles 0x1 q.cmp, packNibbles a b]
  | .pop d => [packNibbles 0x2 d]
  | .ldrom d => [packNibbles 0x3 d]
  | .add d a b => [packNibbles 0x4 d, packNibbles a b]
  | .adc d a b => [packNibbles 0x5 d, packNibbles a b]
  | .stidx a ix iy => [packNibbles 0x6 a, packNibbles ix iy]
  | .sub d a b => [packNibbles 0x7 d, packNibbles a b]
  | .sbc d a b => [packNibbles 0x8 d, packNibbles a b]
  | .ldidx d ix iy => [packNibbles 0x9 d, packNibbles ix iy]
  | .imm d i => [packNibbles 0xA d, i]
  | .nand d a b => [packNibbles 0xB d, packNibbles a b]
  | .iadd d a i => [packNibbles 0xC d, packNibbles a x, i]
  | .isub d a i => [packNibbles 0xD d, packNibbles a x, i]
  | .jmp t => [packNibbles 0xE q.jmp, highByte t, lowByte t]
  | .call t => [packNibbles 0xE q.call, highByte t, lowByte t]
  | .jz t => [packNibbles 0xE q.jz, highByte t, lowByte t]
  | .jn t => [packNibbles 0xE q.jn, highByte t, lowByte t]
  | .jc t => [packNibbles 0xE q.jc, highByte t, lowByte t]
  | .jo t => [packNibbles 0xE q.jo, highByte t, lowByte t]
  | .ldram d => [packNibbles 0xF d]

/-- The bytes the assembler emits: zero in the don't-care nibble (R83, R101). -/
def encode (q : SubSel) (i : Instr) : List Byte := encodeWith q 0x0 i

/-- The low `nbits` bits of `w` as three bytes, the first at bits 7..0; the bits above are 0. -/
def wordBytes (nbits w : Nat) : List Byte :=
  let v := w % 2 ^ nbits
  [BitVec.ofNat 8 v, BitVec.ofNat 8 (v / 256), BitVec.ofNat 8 (v / 65536)]

/-- The instruction that the decoder reads from a word of spec/opcode_table.json, under the default SUBSEL. -/
def decodeTableWord (nbits w : Nat) : Option Instr :=
  match decode defaultSubSel (wordBytes nbits w) with
  | .ok (i, _) => some i
  | .error _ => none

end Sys2Proof
end

