-- ==== Sys2Proof/Machine/Defaults.lean ====
section
/-! DEFINITION. The default value of every parameter of 00_scope.md R7. They are the spec's own decisions (92_eei_decisions.md),
not the source document's: UNVERIFIED, unsafe (log 2). -/

namespace Sys2Proof.Machine

/-- The accessible indices: ra, rb, rc, rsp, rbp, rbnk, radr (R28, R29, D3). -/
def defaultAccessible : List RegIdx := [0x0, 0x1, 0x2, 0xA, 0xB, 0xE, 0xF]

/-- The defaults of R7. -/
def defaultParams : Params where
  subSel := defaultSubSel
  readable := defaultAccessible
  writable := defaultAccessible
  reservedReadValue := 0x00
  flagPos := ⟨0, 1, 2, 3⟩
  subIsAdditive := true
  nandSetsFlags := false
  pcallTarget := .registerPair 0xE 0xF
  stidxSource := .embedded
  unrecognizedMode := .noop
  sinkTrigger := .none

end Sys2Proof.Machine
end

