-- ==== Sys2Proof/Machine/State.lean ====
section
/-! DEFINITION. The state of the block as plain data (10_state.md R20), the reasons a step can stop, and the machine right
after reset (R46). -/

namespace Sys2Proof.Machine

/-- A store of bytes by address: (address, byte) pairs, addresses strictly rising, no byte 0x00; an unlisted address
reads 0x00 (R46 for RAM, R58 for ROM; log 11). -/
abbrev Memory := List Host.Cell

/-- The four flag bits of the flags register (R35). The byte view is `flagsByte` (log 12). -/
structure Flags where
  z : Bool
  c : Bool
  o : Bool
  n : Bool
  deriving DecidableEq, Repr

/-- The staging buffer `stage[0..2]` (R41). -/
structure Stage where
  b0 : Byte
  b1 : Byte
  b2 : Byte
  deriving DecidableEq, Repr

/-- Everything R20 gives the block, and the model's own three fields `params`, `unrecognizedRan`, `sinkTrace`. -/
structure State where
  /-- the register file `x[0..15]` (R21) -/
  regs : Vector Byte 16
  /-- the program counter (R32) -/
  pc : Addr
  /-- the flags register (R35) -/
  flags : Flags
  /-- set by STOP, cleared only by reset (R39) -/
  halted : Bool
  /-- the staging buffer (R41) -/
  stage : Stage
  /-- bytes fetched for the current instruction, 0 to 3 (R42) -/
  fetchCount : Fin 4
  /-- execute micro-steps already done for the current instruction (R43; log 10) -/
  microStep : Nat
  /-- the program store (R45) -/
  rom : Memory
  /-- the data store (R45) -/
  ram : Memory
  /-- the model's own: the parameters of R7, which nothing changes (log 1) -/
  params : Params
  /-- the model's own: the sticky mark of R129 that an UNRECOGNIZED opcode executed (log 6) -/
  unrecognizedRan : Bool
  /-- the model's own: the output trace of R261, oldest byte first (log 7) -/
  sinkTrace : List Byte
  deriving DecidableEq, Repr

/-- Why a step stops with a fault. The block itself has no fault (R250). -/
inductive Fault where
  /-- Raised by an instruction's meaning when microStep is past the last row of its table. The spec gives no row
  there and no run reaches it: safe (log 5). -/
  | microStepOutOfTable
  deriving DecidableEq, Repr

/-- Why an operation is refused. -/
inductive Refusal where
  /-- An arm of exec that has no meaning yet; safe. No arm of this model uses it. -/
  | notModelled (mnemonic : String)
  /-- Raised by the host's load of an image of more than 65536 bytes (R273, D18, I12); safe. -/
  | imageTooLarge
  deriving DecidableEq, Repr

/-- The machine right after reset: every element at R46's value, ROM as before any load (all 0x00, log 8), the default
parameters, nothing recorded yet. -/
def State.reset : State where
  regs := Vector.replicate 16 0x00
  pc := 0x0000
  flags := ⟨false, false, false, false⟩
  halted := false
  stage := ⟨0x00, 0x00, 0x00⟩
  fetchCount := 0
  microStep := 0
  rom := []
  ram := []
  params := defaultParams
  unrecognizedRan := false
  sinkTrace := []

end Sys2Proof.Machine
end

