-- ==== Sys2Proof/Machine/Memory.lean ====
section
/-! DEFINITION. The one-byte memory primitives of 20_memory.md R57 over the canonical list form (log 11). -/

namespace Sys2Proof.Machine

/-- What an address that is not listed reads as: RAM is zeroed by reset (R46), ROM beyond the image is zero (R58). -/
def unlistedByte : Byte := 0x00

/-- The byte listed first at key `k`. -/
def Memory.readAt : Memory → Nat → Byte
  | [], _ => unlistedByte
  | (j, v) :: m, k => if j = k then v else Memory.readAt m k

/-- Drop every entry at key `k`. -/
def Memory.eraseAt : Memory → Nat → Memory
  | [], _ => []
  | (j, v) :: m, k => if j = k then Memory.eraseAt m k else (j, v) :: Memory.eraseAt m k

/-- List the byte `v` at key `k`, before the first larger key. -/
def Memory.insertAt : Memory → Nat → Byte → Memory
  | [], k, v => [(k, v)]
  | (j, w) :: m, k, v => if k < j then (k, v) :: (j, w) :: m else (j, w) :: Memory.insertAt m k v

/-- Write at key `k`, keeping the canonical form: the unlisted byte removes the entry. -/
def Memory.writeAt (m : Memory) (k : Nat) (v : Byte) : Memory :=
  if v = unlistedByte then Memory.eraseAt m k else Memory.insertAt (Memory.eraseAt m k) k v

/-- The byte at a 16-bit address: every address of a space exists (R50). -/
def Memory.read (m : Memory) (a : Addr) : Byte := Memory.readAt m a.toNat

/-- The store with the byte at `a` set to `v`. -/
def Memory.write (m : Memory) (a : Addr) (v : Byte) : Memory := Memory.writeAt m a.toNat v

/-- The canonical form: keys strictly rising, each a 16-bit address, no entry equal to the unlisted byte. -/
abbrev Memory.wf (m : Memory) : Prop :=
  m.Pairwise (fun c d => c.1 < d.1) ∧ ∀ c ∈ m, c.1 < 65536 ∧ c.2 ≠ unlistedByte

/-- The store that holds an image from key `k` on and 0x00 everywhere else (R58, R273). -/
def Memory.ofImage : Nat → List Byte → Memory
  | _, [] => []
  | k, v :: vs =>
    if v = unlistedByte then Memory.ofImage (k + 1) vs else (k, v) :: Memory.ofImage (k + 1) vs

end Sys2Proof.Machine
end

