-- ==== Sys2Proof/Machine/Ops.lean ====
section
/-! DEFINITION. The named operations over registers, memories, pc and sequencer that the meanings share. The block raises no
exception (60_exceptions.md R250) and has no trap entry or return (R254, R255), so no exception operation stands
here. -/

namespace Sys2Proof.Machine

/-- What a step or a meaning answers. -/
abbrev Out := Host.Outcome State Fault Refusal

/-! ## Raw slots (R11, R31) -/

/-- `x[i]`. -/
def rawReg (s : State) (i : RegIdx) : Byte := s.regs[i.toNat]'i.isLt

/-- `x[i] <- v`. -/
def setRaw (i : RegIdx) (v : Byte) (s : State) : State := { s with regs := s.regs.set i.toNat v i.isLt }

/-! ## Memory primitives (R57) -/

/-- `RomRead(a)`. -/
def romRead (s : State) (a : Addr) : Byte := Memory.read s.rom a

/-- `RamRead(a)`. -/
def ramRead (s : State) (a : Addr) : Byte := Memory.read s.ram a

/-- `RamWrite(a, v)`. -/
def ramWrite (a : Addr) (v : Byte) (s : State) : State := { s with ram := Memory.write s.ram a v }

/-! ## Program counter (R33) -/

/-- `pc <- t`. -/
def setPc (t : Addr) (s : State) : State := { s with pc := t }

/-- `pc[15:8] <- v` (R225). -/
def setPcHigh (v : Byte) (s : State) : State := setPc (catBytes v (lowByte s.pc)) s

/-- `pc[7:0] <- v` (R225). -/
def setPcLow (v : Byte) (s : State) : State := setPc (catBytes (highByte s.pc) v) s

/-! ## The byte that a micro-step writes -/

/-- Where an execute micro-step can write a byte. -/
inductive Dest where
  /-- the raw slot x[i] -/
  | reg (i : RegIdx)
  /-- the RAM cell at a -/
  | ram (a : Addr)
  /-- `pc[15:8]` (R225) -/
  | pcHigh
  /-- `pc[7:0]` (R225) -/
  | pcLow
  deriving DecidableEq, Repr

/-- A byte and where it is written. -/
structure Write where
  dest : Dest
  byte : Byte
  deriving DecidableEq, Repr

/-- The state after a write, if there is one. -/
def perform (w : Option Write) (s : State) : State :=
  match w with
  | none => s
  | some ⟨.reg i, v⟩ => setRaw i v s
  | some ⟨.ram a, v⟩ => ramWrite a v s
  | some ⟨.pcHigh, v⟩ => setPcHigh v s
  | some ⟨.pcLow, v⟩ => setPcLow v s

/-! ## The sink (R261) -/

/-- `stage[j]` (R41). -/
def stageByte (s : State) (j : Nat) : Byte :=
  match j with
  | 0 => s.stage.b0
  | 1 => s.stage.b1
  | 2 => s.stage.b2
  | _ => 0x00

/-- The value that a sink condition looks at, in the state `s` that the micro-step starts from. -/
def sinkValue (x : SinkSource) (w : Write) (s : State) : Nat :=
  match x with
  | .byte => w.byte.toNat
  | .microStep => s.microStep
  | .pc => s.pc.toNat
  | .reg i => (rawReg s i).toNat
  | .flagZ => s.flags.z.toNat
  | .flagC => s.flags.c.toNat
  | .flagO => s.flags.o.toNat
  | .flagN => s.flags.n.toNat
  | .staged j => (stageByte s j.val).toNat
  | .rom b => (romRead s b).toNat
  | .ram b => (ramRead s b).toNat

/-- Is the destination a RAM cell from first to last? -/
def Dest.inRam (first last : Addr) : Dest → Bool
  | .ram a => decide (first ≤ a ∧ a ≤ last)
  | .reg _ => false
  | .pcHigh => false
  | .pcLow => false

/-- Does the micro-step of `m` that starts from `s` and writes `w` meet the condition? -/
def sinkHolds (c : SinkCond) (m : Mnemonic) (w : Write) (s : State) : Bool :=
  match c with
  | .within x first last => decide (first ≤ sinkValue x w s ∧ sinkValue x w s ≤ last)
  | .ramWriteIn first last => w.dest.inRam first last
  | .registerWrite i => decide (w.dest = .reg i)
  | .instruction p => decide (m = p)
  | .not c => !sinkHolds c m w s
  | .and c d => sinkHolds c m w s && sinkHolds d m w s
  | .or c d => sinkHolds c m w s || sinkHolds d m w s

/-- Does SINK_TRIGGER name this micro-step? -/
def sinkFires (g : SinkTrigger) (m : Mnemonic) (w : Write) (s : State) : Bool :=
  match g with
  | .none => false
  | .writeWhen c => sinkHolds c m w s

/-- The bytes that a micro-step of `m` hands to `sink.receive`: the byte it writes, once, if SINK_TRIGGER names it. -/
def sinkCall (m : Mnemonic) (w : Option Write) (s : State) : List Byte :=
  match w with
  | none => []
  | some w => if sinkFires s.params.sinkTrigger m w s then [w.byte] else []

/-- A row of `m`'s micro-step table that writes the byte `w`: the write, what else the row does (from the state it
starts from, to the state after the write), and the call of the sink. -/
def writing (m : Mnemonic) (w : State → Option Write) (also : State → State → State) (s : State) : State :=
  { also s (perform (w s) s) with sinkTrace := s.sinkTrace ++ sinkCall m (w s) s }

/-- The row does nothing but write. -/
def only : State → State → State := fun _ t => t

/-! ## Completion (R12, R126) -/

/-- `done`: the instruction is complete, and the sequencer is ready to fetch (R126). -/
def finish (s : State) : State := { s with stage := ⟨0x00, 0x00, 0x00⟩, fetchCount := 0, microStep := 0 }

/-- `continue`: the next step runs the next micro-step (R12, R126). -/
def advance (s : State) : State := { s with microStep := s.microStep + 1 }

/-- Run the row that `microStep` selects of an instruction's micro-step table (R12, R220): the last row ends with
`done`, every other with `continue`. A microStep past the table has no row (log 5). -/
def runRows (rows : List (State → State)) (s : State) : Out :=
  match rows[s.microStep]? with
  | none => .fault .microStepOutOfTable
  | some row => .next (if s.microStep + 1 = rows.length then finish (row s) else advance (row s))

end Sys2Proof.Machine
end

