-- ==== Sys2Proof/Machine/Operands.lean ====
section
/-! DEFINITION. Every operand form: register fields through the masks (10_state.md R28, R29), the effective addresses of
20_memory.md R53 to R55, the PCALL target and the STIDX source. -/

namespace Sys2Proof.Machine

/-- `ReadReg(i)` (R28). -/
def readReg (s : State) (i : RegIdx) : Byte :=
  if i ∈ s.params.readable then rawReg s i else s.params.reservedReadValue

/-- The write that `WriteReg(i, v)` makes (R29): a write to an index that is not writable is dropped. -/
def regWrite (i : RegIdx) (v : Byte) (s : State) : Option Write :=
  if i ∈ s.params.writable then some ⟨.reg i, v⟩ else none

/-- `WriteReg(i, v)` (R29). -/
def writeReg (i : RegIdx) (v : Byte) (s : State) : State := perform (regWrite i v s) s

/-- rsp, rbp, rbnk and radr as raw slots (R14, R31). -/
def rsp (s : State) : Byte := rawReg s 0xA
/-- rbp, raw (R25). -/
def rbp (s : State) : Byte := rawReg s 0xB
/-- rbnk, raw (R26). -/
def rbnk (s : State) : Byte := rawReg s 0xE
/-- radr, raw (R26). -/
def radr (s : State) : Byte := rawReg s 0xF

/-- The row `WriteReg(d, v)` of `m`, with the value computed from the state before the write. -/
def regRow (m : Mnemonic) (d : RegIdx) (v : State → Byte) : State → State := writing m (fun s => regWrite d (v s) s) only

/-- The row `x[i] <- v` of `m`, raw (R31). -/
def rawRow (m : Mnemonic) (i : RegIdx) (v : State → Byte) : State → State :=
  writing m (fun s => some ⟨.reg i, v s⟩) only

/-- The row `RamWrite(a, v)` of `m`. -/
def ramRow (m : Mnemonic) (a : State → Addr) (v : State → Byte) : State → State :=
  writing m (fun s => some ⟨.ram (a s), v s⟩) only

/-- EA_BA: `rbnk ++ radr` (R53). -/
def eaBankAddr (s : State) : Addr := catBytes (rbnk s) (radr s)

/-- EA_IX: the sum of the two index registers wraps within the bank rbnk (R54, D12). -/
def eaIndexed (x y : RegIdx) (s : State) : Addr := catBytes (rbnk s) (readReg s x + readReg s y)

/-- EA_SP: `0xFF ++ rsp`, whatever rbnk holds (R55). -/
def eaStack (s : State) : Addr := catBytes 0xFF (rsp s)

/-- Where PCALL transfers to (`PCALL_TARGET`, R224, D10). -/
def pcallTarget (s : State) : Addr :=
  match s.params.pcallTarget with
  | .registerPair hi lo => catBytes (rawReg s hi) (rawReg s lo)
  | .address t => t

/-- The byte STIDX stores (`STIDX_SOURCE`, R183, D11). -/
def stidxValue (a : RegIdx) (s : State) : Byte :=
  match s.params.stidxSource with
  | .embedded => readReg s a
  | .ra => rawReg s 0x0

/-- The carry flag as a number to add (R152, R155). -/
def carryIn (s : State) : Byte := if s.flags.c then 1 else 0

end Sys2Proof.Machine
end

