-- ==== Sys2Proof/Machine/Composite.lean ====
section
/-! DEFINITION. PUSH, POP, CALL, PCALL, RET (44_microsequenced.md R220 to R225): one row of the spec's table for each
micro-step. Within a row every read comes before any write (R12, D22). -/

namespace Sys2Proof.Machine

/-- `x[0xA] <- x[0xA] + 1`, mod 256 (R220). -/
def incRsp (m : Mnemonic) : State → State := rawRow m 0xA fun s => rsp s + 1

/-- `x[0xA] <- x[0xA] - 1`, mod 256 (R220). -/
def decRsp (m : Mnemonic) : State → State := rawRow m 0xA fun s => rsp s - 1

/-- `RamWrite(0xFF ++ x[0xA], v)` with the value computed from the state before the write. -/
def storeStack (m : Mnemonic) (v : State → Byte) : State → State := ramRow m eaStack v

/-- PUSH (R221). -/
def pushRows (r : RegIdx) : List (State → State) :=
  [storeStack .push fun s => readReg s r, incRsp .push]

/-- PUSH (R221). -/
def execPush (r : RegIdx) (s : State) : Out := runRows (pushRows r) s

/-- POP (R222). -/
def popRows (d : RegIdx) : List (State → State) :=
  [decRsp .pop, regRow .pop d fun s => ramRead s (eaStack s)]

/-- POP (R222). -/
def execPop (d : RegIdx) (s : State) : Out := runRows (popRows d) s

/-- The linkage that CALL and PCALL share (R223, R224); they differ in the target of row 5. -/
def linkageRows (m : Mnemonic) (target : State → Addr) : List (State → State) :=
  [storeStack m rbp,
   incRsp m,
   storeStack m fun s => lowByte s.pc,
   incRsp m,
   storeStack m fun s => highByte s.pc,
   writing m (fun s => some ⟨.reg 0xA, rsp s + 1⟩) fun s t => setPc (target s) t,
   rawRow m 0xB rsp]

/-- CALL (R223): the target is the staged one (D25). -/
def execCall (t : Addr) (s : State) : Out := runRows (linkageRows .call fun _ => t) s

/-- PCALL (R224). -/
def execPcall (s : State) : Out := runRows (linkageRows .pcall pcallTarget) s

/-- RET (R225): the return address goes straight into pc, one byte at a time (D13). -/
def retRows : List (State → State) :=
  [rawRow .ret 0xA fun s => rbp s - 1,
   writing .ret (fun s => some ⟨.pcHigh, ramRead s (eaStack s)⟩) only,
   decRsp .ret,
   writing .ret (fun s => some ⟨.pcLow, ramRead s (eaStack s)⟩) only,
   decRsp .ret,
   rawRow .ret 0xB fun s => ramRead s (eaStack s)]

/-- RET (R225). -/
def execRet (s : State) : Out := runRows retRows s

end Sys2Proof.Machine
end

