-- ==== Sys2Proof/Machine/Control.lean ====
section
/-! DEFINITION. JMP, JZ, JN, JC, JO, STOP (43_control_transfer.md R200 to R205) and the no-op of an UNRECOGNIZED opcode
(40_sequencer.md R129). -/

namespace Sys2Proof.Machine

/-- Transfer to `t` if the condition holds; otherwise pc stays at the next instruction (R201 to R204). -/
def jumpIf (cond : State → Bool) (t : Addr) (s : State) : State := if cond s then setPc t s else s

/-- JMP (R200). -/
def execJmp (t : Addr) (s : State) : Out := runRows [setPc t] s

/-- JZ (R201). -/
def execJz (t : Addr) (s : State) : Out := runRows [jumpIf (fun s => s.flags.z) t] s

/-- JN (R202). -/
def execJn (t : Addr) (s : State) : Out := runRows [jumpIf (fun s => s.flags.n) t] s

/-- JC (R203). -/
def execJc (t : Addr) (s : State) : Out := runRows [jumpIf (fun s => s.flags.c) t] s

/-- JO (R204). -/
def execJo (t : Addr) (s : State) : Out := runRows [jumpIf (fun s => s.flags.o) t] s

/-- STOP (R205): halted is set and nothing else changes; R126's completion does not run (R127, D23). -/
def execStop (s : State) : Out :=
  if s.microStep = 0 then .next { s with halted := true } else .fault .microStepOutOfTable

/-- The mark of R129 that an UNRECOGNIZED opcode executed. -/
def markUnrecognized (s : State) : State := { s with unrecognizedRan := true }

/-- The execute step of an UNRECOGNIZED opcode (R129, D14): by default one micro-step that changes nothing. -/
def execUnrecognized (s : State) : Out :=
  match s.params.unrecognizedMode with
  | .noop => runRows [markUnrecognized] s
  | .neverCompletes => .next (advance (markUnrecognized s))

end Sys2Proof.Machine
end

