-- ==== Sys2Proof/Machine/Flags.lean ====
section
/-! DEFINITION. Every flag computation of the spec: `updateFlags` (41_data_processing.md R150) and the byte view of the
flags register (10_state.md R35). -/

namespace Sys2Proof.Machine

/-- The four flags that `updateFlags(prev, res, isAdditive)` writes (R150). Not the conventional carry and overflow
(R161): "preserve as specified, do not 'fix'". -/
def computeFlags (prev res : Byte) (isAdditive : Bool) : Flags where
  z := res == 0x00
  n := decide (0x7F < res.toNat)
  o := decide (0x7F < res.toNat) && decide (prev.toNat ≤ 0x7F)
  c := isAdditive && decide (res.toNat < prev.toNat)

/-- R150: all four flags are recomputed, none is merged. -/
def updateFlags (prev res : Byte) (isAdditive : Bool) (s : State) : State :=
  { s with flags := computeFlags prev res isAdditive }

/-- The flags register as the host reads it (R35): each flag at its position, every other bit 0. -/
def flagsByte (p : FlagPos) (f : Flags) : Byte :=
  (BitVec.ofBool f.z).zeroExtend 8 <<< p.z.val ||| (BitVec.ofBool f.c).zeroExtend 8 <<< p.c.val |||
    (BitVec.ofBool f.o).zeroExtend 8 <<< p.o.val ||| (BitVec.ofBool f.n).zeroExtend 8 <<< p.n.val

end Sys2Proof.Machine
end

