-- ==== Sys2Proof/Machine/DataProcessing.lean ====
section
/-! DEFINITION. ADD, ADC, IADD, SUB, SBC, ISUB, CMP, NAND, IMM (41_data_processing.md R150 to R159). One micro-step each. -/

namespace Sys2Proof.Machine

/-- The common row of the addition and subtraction families (R151 to R156): `d` gets the result, and the flags come
from d's value before the write and the result. -/
def aluRow (m : Mnemonic) (d : RegIdx) (isAdditive : Bool) (res : State → Byte) : State → State :=
  writing m (fun s => regWrite d (res s) s) fun s t => updateFlags (readReg s d) (res s) isAdditive t

/-- ADD (R151). -/
def execAdd (d a b : RegIdx) (s : State) : Out :=
  runRows [aluRow .add d true fun s => readReg s a + readReg s b] s

/-- ADC (R152): C is read before it is overwritten. -/
def execAdc (d a b : RegIdx) (s : State) : Out :=
  runRows [aluRow .adc d true fun s => readReg s a + readReg s b + carryIn s] s

/-- IADD (R153). -/
def execIadd (d a : RegIdx) (i : Byte) (s : State) : Out :=
  runRows [aluRow .iadd d true fun s => readReg s a + i] s

/-- SUB (R154), with the flag argument `SUB_IS_ADDITIVE` (D6). -/
def execSub (d a b : RegIdx) (s : State) : Out :=
  runRows [aluRow .sub d s.params.subIsAdditive fun s => readReg s a - readReg s b] s

/-- SBC (R155): `a - b - C` (D7). -/
def execSbc (d a b : RegIdx) (s : State) : Out :=
  runRows [aluRow .sbc d s.params.subIsAdditive fun s => readReg s a - readReg s b - carryIn s] s

/-- ISUB (R156). -/
def execIsub (d a : RegIdx) (i : Byte) (s : State) : Out :=
  runRows [aluRow .isub d s.params.subIsAdditive fun s => readReg s a - i] s

/-- CMP (R157): no register is written, prev is the first operand (D8), and C is always cleared. -/
def execCmp (a b : RegIdx) (s : State) : Out :=
  runRows [fun s => updateFlags (readReg s a) (readReg s a - readReg s b) false s] s

/-- NAND (R158): the flags change only under `NAND_SETS_FLAGS` (D9). -/
def nandRow (d a b : RegIdx) : State → State :=
  let res := fun s => ~~~(readReg s a &&& readReg s b)
  writing .nand (fun s => regWrite d (res s) s) fun s t =>
    if s.params.nandSetsFlags then updateFlags (readReg s d) (res s) false t else t

/-- NAND (R158). -/
def execNand (d a b : RegIdx) (s : State) : Out := runRows [nandRow d a b] s

/-- IMM (R159). -/
def execImm (d : RegIdx) (i : Byte) (s : State) : Out := runRows [regRow .imm d fun _ => i] s

end Sys2Proof.Machine
end

