-- ==== Sys2Proof/Machine/LoadStore.lean ====
section
/-! DEFINITION. STO, LDROM, LDRAM, STIDX, LDIDX (42_load_store.md R180 to R184). One micro-step each; no flag changes. -/

namespace Sys2Proof.Machine

/-- STO (R180). -/
def execSto (r : RegIdx) (s : State) : Out :=
  runRows [ramRow .sto eaBankAddr fun s => readReg s r] s

/-- LDROM (R181). -/
def execLdrom (d : RegIdx) (s : State) : Out :=
  runRows [regRow .ldrom d fun s => romRead s (eaBankAddr s)] s

/-- LDRAM (R182). -/
def execLdram (d : RegIdx) (s : State) : Out :=
  runRows [regRow .ldram d fun s => ramRead s (eaBankAddr s)] s

/-- STIDX (R183). -/
def execStidx (a x y : RegIdx) (s : State) : Out :=
  runRows [ramRow .stidx (eaIndexed x y) (stidxValue a)] s

/-- LDIDX (R184). -/
def execLdidx (d x y : RegIdx) (s : State) : Out :=
  runRows [regRow .ldidx d fun s => ramRead s (eaIndexed x y s)] s

end Sys2Proof.Machine
end

