-- ==== Sys2Proof/Machine/Dispatch.lean ====
section
/-! DEFINITION. EXEC of 40_sequencer.md R125 and R126: run micro-step k = microStep of an instruction, its completion included. -/

namespace Sys2Proof.Machine

def exec (i : Instr) (s : State) : Host.Outcome State Fault Refusal :=
  match i with
  | .stop => Sys2Proof.Machine.execStop s
  | .ret => Sys2Proof.Machine.execRet s
  | .pcall => Sys2Proof.Machine.execPcall s
  | .push r => Sys2Proof.Machine.execPush r s
  | .sto r => Sys2Proof.Machine.execSto r s
  | .cmp a b => Sys2Proof.Machine.execCmp a b s
  | .pop d => Sys2Proof.Machine.execPop d s
  | .ldrom d => Sys2Proof.Machine.execLdrom d s
  | .add d a b => Sys2Proof.Machine.execAdd d a b s
  | .adc d a b => Sys2Proof.Machine.execAdc d a b s
  | .stidx a x y => Sys2Proof.Machine.execStidx a x y s
  | .sub d a b => Sys2Proof.Machine.execSub d a b s
  | .sbc d a b => Sys2Proof.Machine.execSbc d a b s
  | .ldidx d x y => Sys2Proof.Machine.execLdidx d x y s
  | .imm d v => Sys2Proof.Machine.execImm d v s
  | .nand d a b => Sys2Proof.Machine.execNand d a b s
  | .iadd d a v => Sys2Proof.Machine.execIadd d a v s
  | .isub d a v => Sys2Proof.Machine.execIsub d a v s
  | .jmp t => Sys2Proof.Machine.execJmp t s
  | .call t => Sys2Proof.Machine.execCall t s
  | .jz t => Sys2Proof.Machine.execJz t s
  | .jn t => Sys2Proof.Machine.execJn t s
  | .jc t => Sys2Proof.Machine.execJc t s
  | .jo t => Sys2Proof.Machine.execJo t s
  | .ldram d => Sys2Proof.Machine.execLdram d s

end Sys2Proof.Machine
end

