-- ==== Sys2Proof/Machine/Fetch.lean ====
section
/-! DEFINITION. The fetch stage (40_sequencer.md R124) and the decoding of the staging buffer (R125). -/

namespace Sys2Proof.Machine

/-- `stage[k] <- v` for k = 0, 1, 2 (R41). There is no slot 3, and fetch never selects it. -/
def Stage.put (g : Stage) (k : Nat) (v : Byte) : Stage :=
  match k with
  | 0 => { g with b0 := v }
  | 1 => { g with b1 := v }
  | 2 => { g with b2 := v }
  | _ => g

/-- The length of the instruction whose first byte is staged (R80, R88). -/
def stagedLen (s : State) : Nat := instrLen (hiNibble s.stage.b0)

/-- R124's condition: a byte is still to be fetched. -/
def fetchPending (s : State) : Bool := decide (s.fetchCount = 0) || decide (s.fetchCount.val < stagedLen s)

/-- Fetch one byte (R124): the full 16-bit pc is the address (R52), and pc wraps (R34). -/
def fetchByte (s : State) : State :=
  { s with
    stage := Stage.put s.stage s.fetchCount.val (romRead s s.pc)
    fetchCount := s.fetchCount + 1
    pc := s.pc + 1 }

/-- Fetch `k` bytes, one after the other. -/
def fetchBytes : Nat → State → State
  | 0, s => s
  | k + 1, s => fetchBytes k (fetchByte s)

/-- The decoder on the staged bytes: dispatch is on them, never on ROM (R125). -/
def decodeStaged (s : State) : Except DecodeError Instr :=
  decodeStage s.params.subSel s.stage.b0 s.stage.b1 s.stage.b2

/-- ROM with bytes stored at an address and the ones after it. -/
def storeBytes : List Byte → Addr → Memory → Memory
  | [], _, m => m
  | v :: vs, a, m => storeBytes vs (a + 1) (Memory.write m a v)

/-- The state in which the instruction `w` stands in ROM at pc and its bytes have been fetched, so that the next step
is its micro-step 0 (log 9). -/
def placeWord (nbits w : Nat) (s : State) : State :=
  let bytes := wordBytes nbits w
  let at0 : State := { finish s with rom := storeBytes bytes s.pc s.rom, halted := false }
  fetchBytes (instrLen (hiNibble (bytes.getD 0 0))) at0

end Sys2Proof.Machine
end

