-- ==== Sys2Proof/Machine/Step.lean ====
section
/-! DEFINITION. The whole step() of 40_sequencer.md R130, and the state in which a given word is the next instruction. -/

namespace Sys2Proof.Machine

/-- One step() call: one fetched byte or one execute micro-step (R121, R130; log 4). -/
def step (s : State) : Host.Outcome State Fault Refusal :=
  if s.halted then .next s
  else if fetchPending s then .next (fetchByte s)
  else
    match decodeStaged s with
    | .ok i => exec i s
    | .error _ => execUnrecognized s

/-- `s` with the word `w` in ROM at pc and its bytes fetched: the next step runs it (log 9). -/
def State.withFetchWord (s : State) (nbits w : Nat) : State := placeWord nbits w s

end Sys2Proof.Machine
end

