-- ==== Sys2Proof/Machine/HostOps.lean ====
section
/-! DEFINITION. The host's operations of 40_sequencer.md R120 other than step(): reset, load, boot, and the state read-out. -/

namespace Sys2Proof.Machine

/-- reset() (70_reset_and_hazards.md R270), from any state and at any time between steps (R271). ROM is kept; so are
the parameters and the model's two records (logs 1, 6, 7). -/
def hostReset (s : State) : State :=
  { State.reset with
    rom := s.rom
    params := s.params
    unrecognizedRan := s.unrecognizedRan
    sinkTrace := s.sinkTrace }

/-- load(image) (R273): the image from address 0 on and zeros beyond it. More than 65536 bytes are refused (D18). -/
def hostLoad (image : List Byte) (s : State) : Out :=
  if image.length ≤ 65536 then .next { s with rom := Memory.ofImage 0 image } else .refused .imageTooLarge

/-- The boot order of R274: load, then reset; steps follow (log 13). -/
def boot (image : List Byte) (s : State) : Out :=
  match hostLoad image s with
  | .next t => .next (hostReset t)
  | .fault f => .fault f
  | .refused r => .refused r

/-- What the host can read between operations (R120). It cannot see microStep (R43), and fetchCount is no part of
R120's read-out. -/
structure ReadOut where
  regs : Vector Byte 16
  flags : Byte
  pc : Addr
  stage : Stage
  halted : Bool
  rom : Memory
  ram : Memory
  deriving DecidableEq, Repr

/-- The state read-out of R120, with no side effect. -/
def readOut (s : State) : ReadOut where
  regs := s.regs
  flags := flagsByte s.params.flagPos s.flags
  pc := s.pc
  stage := s.stage
  halted := s.halted
  rom := s.rom
  ram := s.ram

end Sys2Proof.Machine
end

