-- ==== Sys2Proof/Safety.lean ====
section
/-! DEFINITION. What counts as a safe run, in the terms the statements use: runs of steps, the sequencer's phases and its
invariant, the invariants of the memories and of the staged bytes, and what a micro-step changes and keeps. -/

namespace Sys2Proof.Machine

/-! ## Runs -/

/-- `k` steps, stopping at the first fault or refusal. -/
def run : Nat → State → Out
  | 0, s => .next s
  | k + 1, s =>
    match step s with
    | .next t => run k t
    | .fault f => .fault f
    | .refused r => .refused r

/-! ## The sequencer (40_sequencer.md) -/

/-- R132: how many execute micro-steps an instruction takes. -/
def microSteps : Instr → Nat
  | .stop => 1
  | .ret => 6
  | .pcall => 7
  | .push _ => 2
  | .sto _ => 1
  | .cmp _ _ => 1
  | .pop _ => 2
  | .ldrom _ => 1
  | .add _ _ _ => 1
  | .adc _ _ _ => 1
  | .stidx _ _ _ => 1
  | .sub _ _ _ => 1
  | .sbc _ _ _ => 1
  | .ldidx _ _ _ => 1
  | .imm _ _ => 1
  | .nand _ _ _ => 1
  | .iadd _ _ _ => 1
  | .isub _ _ _ => 1
  | .jmp _ => 1
  | .call _ => 7
  | .jz _ => 1
  | .jn _ => 1
  | .jc _ => 1
  | .jo _ => 1
  | .ldram _ => 1

/-- R123: the three phases. -/
inductive Phase where
  | fetch (n : Nat)
  | execute (k : Nat)
  | halted
  deriving DecidableEq, Repr

/-- The phase that the sequencer state is in (R123). -/
def phase (s : State) : Phase :=
  if s.halted then .halted else if fetchPending s then .fetch s.fetchCount.val else .execute s.microStep

/-- microStep selects a row of what is staged: below R132's count for an instruction, 0 for an UNRECOGNIZED opcode
(any value under `neverCompletes`, log 15). -/
def microStepLegal (s : State) : Bool :=
  match decodeStaged s with
  | .ok i => decide (s.microStep < microSteps i)
  | .error _ => decide (s.params.unrecognizedMode = .neverCompletes) || decide (s.microStep = 0)

/-- The sequencer invariant: R123's own, the bounds of R42 and R43, the unused slots of R41, and what STOP leaves
(R127). -/
structure SeqInv (s : State) : Prop where
  /-- R123: "when fetchCount = 0, stage = [0x00, 0x00, 0x00] and microStep = 0" -/
  idle : s.fetchCount = 0 → s.stage = ⟨0x00, 0x00, 0x00⟩ ∧ s.microStep = 0
  /-- no byte past the instruction is fetched (R124) -/
  fetched : s.fetchCount ≠ 0 → s.fetchCount.val ≤ stagedLen s
  /-- the slots not fetched into hold 0x00 (R41) -/
  unusedZero : (s.fetchCount.val < 2 → s.stage.b1 = 0x00) ∧ (s.fetchCount.val < 3 → s.stage.b2 = 0x00)
  /-- no micro-step has run while bytes are missing (R123) -/
  fetching : fetchPending s = true → s.microStep = 0
  /-- Execute(k): row k exists (R43) -/
  executing : fetchPending s = false → microStepLegal s = true
  /-- R127: STOP leaves its opcode staged and microStep 0 -/
  stopped : s.halted = true → fetchPending s = false ∧ decodeStaged s = .ok .stop ∧ s.microStep = 0

/-- Both memories are in canonical form (log 11). -/
def MemInv (s : State) : Prop := Memory.wf s.rom ∧ Memory.wf s.ram

/-- Until the first micro-step has run, pc stands one past the last staged byte, and the staged bytes are the ROM bytes
just before pc (R32, R124). -/
def StagedFromRom (s : State) : Prop :=
  s.microStep = 0 → ∀ j, j < s.fetchCount.val →
    stageByte s j = romRead s (s.pc - BitVec.ofNat 16 s.fetchCount.val + BitVec.ofNat 16 j)

/-- Ready to fetch an instruction's first byte: not halted, nothing staged (R47, R126). -/
def Idle (s : State) : Prop :=
  s.halted = false ∧ s.fetchCount = 0 ∧ s.stage = ⟨0x00, 0x00, 0x00⟩ ∧ s.microStep = 0

/-- Execute(k) of the instruction `i`: not halted, all bytes fetched, `i` staged, k micro-steps done (R123). -/
def Executing (i : Instr) (k : Nat) (s : State) : Prop :=
  s.halted = false ∧ fetchPending s = false ∧ decodeStaged s = .ok i ∧ s.microStep = k

/-! ## What a micro-step changes and keeps, from `s` to `t` -/

/-- `done` (R126): the staging buffer and both counters are cleared. -/
def Completed (t : State) : Prop := t.stage = ⟨0x00, 0x00, 0x00⟩ ∧ t.fetchCount = 0 ∧ t.microStep = 0

/-- `continue` (R126): microStep advances by 1, the staged bytes stay. -/
def Continued (s t : State) : Prop :=
  t.stage = s.stage ∧ t.fetchCount = s.fetchCount ∧ t.microStep = s.microStep + 1

/-- The register file after `WriteReg(d, v)` (R29): d holds v if it is writable, every other slot is kept, and a
reserved d drops the write. -/
def RegWritten (d : RegIdx) (v : Byte) (s t : State) : Prop :=
  ∀ j, rawReg t j = if j = d ∧ d ∈ s.params.writable then v else rawReg s j

/-- The register file after the raw write `x[i] <- v` (R31). -/
def RawWritten (i : RegIdx) (v : Byte) (s t : State) : Prop := ∀ j, rawReg t j = if j = i then v else rawReg s j

/-- Every register slot is kept. -/
def RegsKept (s t : State) : Prop := ∀ j, rawReg t j = rawReg s j

/-- `RamWrite(a, v)` (R57): that byte becomes v, every other byte is kept. -/
def RamWritten (a : Addr) (v : Byte) (s t : State) : Prop := ∀ b, ramRead t b = if b = a then v else ramRead s b

/-- Nothing is stored: every byte of RAM is kept. -/
def RamKept (s t : State) : Prop := ∀ b, ramRead t b = ramRead s b

/-- The sink gets what the micro-step of `m` that writes `w` hands it, after what it got before (R261, log 3). -/
def SinkGets (m : Mnemonic) (w : Option Write) (s t : State) : Prop := t.sinkTrace = s.sinkTrace ++ sinkCall m w s

/-- The sink gets nothing. -/
def SinkKept (s t : State) : Prop := t.sinkTrace = s.sinkTrace

/-- A micro-step of `m` with `WriteReg(d, v)`; a dropped write offers the sink no byte. -/
def RegWrittenBy (m : Mnemonic) (d : RegIdx) (v : Byte) (s t : State) : Prop :=
  RegWritten d v s t ∧ SinkGets m (if d ∈ s.params.writable then some ⟨.reg d, v⟩ else none) s t

/-- A micro-step of `m` with the raw write `x[i] <- v`. -/
def RawWrittenBy (m : Mnemonic) (i : RegIdx) (v : Byte) (s t : State) : Prop :=
  RawWritten i v s t ∧ SinkGets m (some ⟨.reg i, v⟩) s t

/-- A micro-step of `m` with `RamWrite(a, v)`. -/
def RamWrittenBy (m : Mnemonic) (a : Addr) (v : Byte) (s t : State) : Prop :=
  RamWritten a v s t ∧ SinkGets m (some ⟨.ram a, v⟩) s t

/-- The four flags are those of `updateFlags(prev, res, isAdditive)`, in R150's words. -/
def FlagsUpdated (prev res : Byte) (isAdditive : Bool) (t : State) : Prop :=
  (t.flags.z = true ↔ res = 0x00) ∧
    (t.flags.n = true ↔ 0x7F < res.toNat) ∧
    (t.flags.o = true ↔ 0x7F < res.toNat ∧ prev.getLsbD 7 = false) ∧
    (t.flags.c = true ↔ isAdditive = true ∧ res.toNat < prev.toNat)

/-- What no instruction but STOP changes: ROM, halted, the parameters, the mark of R129. -/
def CoreKept (s t : State) : Prop :=
  t.rom = s.rom ∧ t.halted = s.halted ∧ t.params = s.params ∧ t.unrecognizedRan = s.unrecognizedRan

/-- A micro-step that ends with `done`, stores nothing and leaves pc alone. -/
def DoneKeepingRamPc (s t : State) : Prop := RamKept s t ∧ t.pc = s.pc ∧ CoreKept s t ∧ Completed t

/-- The address a micro-step stores to, computed as the meanings compute it, if it stores (R50, R185, R221, R223,
R224). -/
def storeAddress (i : Instr) (s : State) : Option Addr :=
  match i with
  | .sto _ => if s.microStep = 0 then some (eaBankAddr s) else none
  | .stidx _ x y => if s.microStep = 0 then some (eaIndexed x y s) else none
  | .push _ => if s.microStep = 0 then some (eaStack s) else none
  | .call _ => if s.microStep ∈ [0, 2, 4] then some (eaStack s) else none
  | .pcall => if s.microStep ∈ [0, 2, 4] then some (eaStack s) else none
  | .stop => none
  | .ret => none
  | .cmp _ _ => none
  | .pop _ => none
  | .ldrom _ => none
  | .add _ _ _ => none
  | .adc _ _ _ => none
  | .sub _ _ _ => none
  | .sbc _ _ _ => none
  | .ldidx _ _ _ => none
  | .imm _ _ => none
  | .nand _ _ _ => none
  | .iadd _ _ _ => none
  | .isub _ _ _ => none
  | .jmp _ => none
  | .jz _ => none
  | .jn _ => none
  | .jc _ => none
  | .jo _ => none
  | .ldram _ => none

/-- The name of an instruction. -/
def mnemonic : Instr → Mnemonic
  | .stop => .stop
  | .ret => .ret
  | .pcall => .pcall
  | .push _ => .push
  | .sto _ => .sto
  | .cmp _ _ => .cmp
  | .pop _ => .pop
  | .ldrom _ => .ldrom
  | .add _ _ _ => .add
  | .adc _ _ _ => .adc
  | .stidx _ _ _ => .stidx
  | .sub _ _ _ => .sub
  | .sbc _ _ _ => .sbc
  | .ldidx _ _ _ => .ldidx
  | .imm _ _ => .imm
  | .nand _ _ _ => .nand
  | .iadd _ _ _ => .iadd
  | .isub _ _ _ => .isub
  | .jmp _ => .jmp
  | .call _ => .call
  | .jz _ => .jz
  | .jn _ => .jn
  | .jc _ => .jc
  | .jo _ => .jo
  | .ldram _ => .ldram

/-- The byte of each row of the linkage (R223). -/
def linkageByte (s : State) : Option Write :=
  if s.microStep = 0 then some ⟨.ram (eaStack s), rbp s⟩
  else if s.microStep = 2 then some ⟨.ram (eaStack s), lowByte s.pc⟩
  else if s.microStep = 4 then some ⟨.ram (eaStack s), highByte s.pc⟩
  else if s.microStep = 6 then some ⟨.reg 0xB, rsp s⟩
  else some ⟨.reg 0xA, rsp s + 1⟩

/-- The byte that a micro-step writes and where, computed as the meanings compute it (R261 "the byte v it wrote").
None where it writes no byte: flags, a whole pc, halted, a dropped write, a CALL's target (log 3). -/
def writtenByte (i : Instr) (s : State) : Option Write :=
  match i with
  | .add d a b => regWrite d (readReg s a + readReg s b) s
  | .adc d a b => regWrite d (readReg s a + readReg s b + carryIn s) s
  | .iadd d a v => regWrite d (readReg s a + v) s
  | .sub d a b => regWrite d (readReg s a - readReg s b) s
  | .sbc d a b => regWrite d (readReg s a - readReg s b - carryIn s) s
  | .isub d a v => regWrite d (readReg s a - v) s
  | .nand d a b => regWrite d (~~~(readReg s a &&& readReg s b)) s
  | .imm d v => regWrite d v s
  | .sto r => some ⟨.ram (eaBankAddr s), readReg s r⟩
  | .stidx a x y => some ⟨.ram (eaIndexed x y s), stidxValue a s⟩
  | .ldrom d => regWrite d (romRead s (eaBankAddr s)) s
  | .ldram d => regWrite d (ramRead s (eaBankAddr s)) s
  | .ldidx d x y => regWrite d (ramRead s (eaIndexed x y s)) s
  | .push r => if s.microStep = 0 then some ⟨.ram (eaStack s), readReg s r⟩ else some ⟨.reg 0xA, rsp s + 1⟩
  | .pop d => if s.microStep = 0 then some ⟨.reg 0xA, rsp s - 1⟩ else regWrite d (ramRead s (eaStack s)) s
  | .call _ => linkageByte s
  | .pcall => linkageByte s
  | .ret =>
    if s.microStep = 0 then some ⟨.reg 0xA, rbp s - 1⟩
    else if s.microStep = 1 then some ⟨.pcHigh, ramRead s (eaStack s)⟩
    else if s.microStep = 3 then some ⟨.pcLow, ramRead s (eaStack s)⟩
    else if s.microStep = 5 then some ⟨.reg 0xB, ramRead s (eaStack s)⟩
    else some ⟨.reg 0xA, rsp s - 1⟩
  | .cmp _ _ => none
  | .jmp _ => none
  | .jz _ => none
  | .jn _ => none
  | .jc _ => none
  | .jo _ => none
  | .stop => none

/-- The byte stands where it was written. -/
def Holds (w : Write) (t : State) : Prop :=
  match w.dest with
  | .reg i => rawReg t i = w.byte
  | .ram a => ramRead t a = w.byte
  | .pcHigh => highByte t.pc = w.byte
  | .pcLow => lowByte t.pc = w.byte

/-- The instructions that call updateFlags (R36). -/
def WritesFlags (p : Params) : Instr → Prop
  | .add _ _ _ => True
  | .adc _ _ _ => True
  | .iadd _ _ _ => True
  | .sub _ _ _ => True
  | .sbc _ _ _ => True
  | .isub _ _ _ => True
  | .cmp _ _ => True
  | .nand _ _ _ => p.nandSetsFlags = true
  | .stop => False
  | .ret => False
  | .pcall => False
  | .push _ => False
  | .sto _ => False
  | .pop _ => False
  | .ldrom _ => False
  | .stidx _ _ _ => False
  | .ldidx _ _ _ => False
  | .imm _ _ => False
  | .jmp _ => False
  | .call _ => False
  | .jz _ => False
  | .jn _ => False
  | .jc _ => False
  | .jo _ => False
  | .ldram _ => False

/-- The writes of pc that R33 lists, by instruction, flags and micro-step. -/
def WritesPc (s : State) : Instr → Prop
  | .jmp _ => True
  | .jz _ => s.flags.z = true
  | .jn _ => s.flags.n = true
  | .jc _ => s.flags.c = true
  | .jo _ => s.flags.o = true
  | .call _ => s.microStep = 5
  | .pcall => s.microStep = 5
  | .ret => s.microStep = 1 ∨ s.microStep = 3
  | .stop => False
  | .push _ => False
  | .sto _ => False
  | .cmp _ _ => False
  | .pop _ => False
  | .ldrom _ => False
  | .add _ _ _ => False
  | .adc _ _ _ => False
  | .stidx _ _ _ => False
  | .sub _ _ _ => False
  | .sbc _ _ _ => False
  | .ldidx _ _ _ => False
  | .imm _ _ => False
  | .nand _ _ _ => False
  | .iadd _ _ _ => False
  | .isub _ _ _ => False
  | .ldram _ => False

/-- The raw writes of rsp and rbp by the composite operations (R30, R31), by micro-step. -/
def WritesStackReg (s : State) (j : RegIdx) : Instr → Prop
  | .push _ => j = 0xA ∧ s.microStep = 1
  | .pop _ => j = 0xA ∧ s.microStep = 0
  | .call _ => (j = 0xA ∧ s.microStep ∈ [1, 3, 5]) ∨ (j = 0xB ∧ s.microStep = 6)
  | .pcall => (j = 0xA ∧ s.microStep ∈ [1, 3, 5]) ∨ (j = 0xB ∧ s.microStep = 6)
  | .ret => (j = 0xA ∧ s.microStep ∈ [0, 2, 4]) ∨ (j = 0xB ∧ s.microStep = 5)
  | .stop => False
  | .sto _ => False
  | .cmp _ _ => False
  | .ldrom _ => False
  | .add _ _ _ => False
  | .adc _ _ _ => False
  | .stidx _ _ _ => False
  | .sub _ _ _ => False
  | .sbc _ _ _ => False
  | .ldidx _ _ _ => False
  | .imm _ _ => False
  | .nand _ _ _ => False
  | .iadd _ _ _ => False
  | .isub _ _ _ => False
  | .jmp _ => False
  | .jz _ => False
  | .jn _ => False
  | .jc _ => False
  | .jo _ => False
  | .ldram _ => False

end Sys2Proof.Machine
end

