-- ==== Sys2Proof/Certificates/Slice0/Obligations.lean ====
section
/-! DEFINITION. The statements for the provers. Each docstring names the rule of spec/ it formalises. A statement about an
instruction says that exec answers a next state, what that state holds, and what it keeps. -/

open Sys2Proof Sys2Proof.Machine

/-! ## Encoding -/

/-- R81, R82, R83, R85: decoding the bytes of an instruction gives it back, with every operand at every value, any
value in the don't-care nibble, any bytes after it, under every SUBSEL whose values are distinct within a family. -/
def Obligations.DecodeOfEncodeGivesTheInstruction : Prop :=
  ∀ (q : SubSel) (x : Nibble) (i : Instr) (rest : List Byte), q.Distinct →
    decode q (encodeWith q x i ++ rest) = .ok (i, rest)

/-- R89: bytes that decode to an instruction are its encoding, up to the don't-care nibble of R83. -/
def Obligations.BytesThatDecodeAreTheEncoding : Prop :=
  ∀ (q : SubSel) (bytes : List Byte) (i : Instr) (rest : List Byte),
    decode q bytes = .ok (i, rest) → ∃ x : Nibble, bytes = encodeWith q x i ++ rest

/-- R85, R87: the decoder rejects exactly the sub-selectors that SUBSEL does not assign in families 0x0, 0x1 and 0xE,
and it rejects them by name. -/
def Obligations.UnrecognizedExactlyTheUnassignedSubSelectors : Prop :=
  ∀ (q : SubSel) (b0 b1 b2 : Byte),
    ((∃ e, decodeStage q b0 b1 b2 = .error e) ↔
      (hiNibble b0 = 0x0 ∧ loNibble b0 ∉ [q.stop, q.ret, q.pcall]) ∨
      (hiNibble b0 = 0x1 ∧ loNibble b0 ∉ [q.push, q.sto, q.cmp]) ∨
      (hiNibble b0 = 0xE ∧ loNibble b0 ∉ [q.jmp, q.call, q.jz, q.jn, q.jc, q.jo])) ∧
    ∀ e, decodeStage q b0 b1 b2 = .error e → e = .unrecognized b0

/-- R80: the family alone fixes the length, 1, 2 or 3 bytes, and decoding takes exactly that many bytes. -/
def Obligations.FamilyFixesTheLength : Prop :=
  (∀ f : Nibble,
    (f ∈ ([0x0, 0x2, 0x3, 0xF] : List Nibble) → instrLen f = 1) ∧
    (f ∈ ([0x1, 0x4, 0x5, 0x6, 0x7, 0x8, 0x9, 0xA, 0xB] : List Nibble) → instrLen f = 2) ∧
    (f ∈ ([0xC, 0xD, 0xE] : List Nibble) → instrLen f = 3)) ∧
  ∀ (q : SubSel) (b0 : Byte) (more : List Byte) (i : Instr) (rest : List Byte),
    decode q (b0 :: more) = .ok (i, rest) → more.length + 1 = rest.length + instrLen (hiNibble b0)

/-- R84, R86, R90: words written out from the encoding table, one or more from each format, decode to the instruction they stand for. -/
def Obligations.SampleWordsDecodeToTheirInstructions : Prop :=
  decodeTableWord 8 0x00 = some .stop ∧
  decodeTableWord 8 0x02 = some .pcall ∧
  decodeTableWord 16 0xA010 = some (.push 0xA) ∧
  decodeTableWord 16 0x0112 = some (.cmp 0x0 0x1) ∧
  decodeTableWord 8 0x2A = some (.pop 0xA) ∧
  decodeTableWord 16 0xF060 = some (.stidx 0x0 0xF 0x0) ∧
  decodeTableWord 16 0x05A0 = some (.imm 0x0 0x05) ∧
  decodeTableWord 24 0x0110C2 = some (.iadd 0x2 0x1 0x01) ∧
  decodeTableWord 24 0x1400E2 = some (.jz 0x0014) ∧
  decodeTableWord 8 0x05 = none

/-! ## Registers, flags, addresses -/

/-- R28: `ReadReg(i)`. -/
def Obligations.ReadRegFollowsTheReadMask : Prop :=
  (∀ (s : State) (i : RegIdx),
    (i ∈ s.params.readable → readReg s i = rawReg s i) ∧
    (i ∉ s.params.readable → readReg s i = s.params.reservedReadValue)) ∧
  State.reset.params.readable = [0x0, 0x1, 0x2, 0xA, 0xB, 0xE, 0xF] ∧
  State.reset.params.reservedReadValue = 0x00

/-- R29: `WriteReg(i, v)` writes a writable slot, drops the write to any other, and changes nothing but that slot. -/
def Obligations.WriteRegFollowsTheWriteMask : Prop :=
  (∀ (s : State) (i : RegIdx) (v : Byte),
    RegWritten i v s (writeReg i v s) ∧ writeReg i v s = { s with regs := (writeReg i v s).regs }) ∧
  State.reset.params.writable = [0x0, 0x1, 0x2, 0xA, 0xB, 0xE, 0xF]

/-- R150: `updateFlags(prev, res, isAdditive)` writes all four flags by its four formulas and nothing else. -/
def Obligations.UpdateFlagsWritesTheFourFormulas : Prop :=
  ∀ (prev res : Byte) (isAdditive : Bool) (s : State),
    FlagsUpdated prev res isAdditive (updateFlags prev res isAdditive s) ∧
      updateFlags prev res isAdditive s = { s with flags := (updateFlags prev res isAdditive s).flags }

/-- R35: in the flags byte each flag stands at its position and every other bit is 0, for every FLAG_BITPOS (two flags
at one position show as their OR); the default positions are Z 0, C 1, O 2, N 3. -/
def Obligations.FlagsByteHoldsEachFlagAtItsPosition : Prop :=
  (∀ (p : FlagPos) (f : Flags) (j : Nat), j < 8 →
    (flagsByte p f).getLsbD j =
      ((decide (j = p.z.val) && f.z) || (decide (j = p.c.val) && f.c) ||
        (decide (j = p.o.val) && f.o) || (decide (j = p.n.val) && f.n))) ∧
  State.reset.params.flagPos = ⟨0, 1, 2, 3⟩

/-- R53, R54, R55: the three data addresses, as numbers; the offset sum wraps within the bank. -/
def Obligations.DataAddressesAreBankAndOffset : Prop :=
  ∀ (s : State) (x y : RegIdx),
    (eaBankAddr s).toNat = (rawReg s 0xE).toNat * 256 + (rawReg s 0xF).toNat ∧
    (eaIndexed x y s).toNat =
      (rawReg s 0xE).toNat * 256 + ((readReg s x).toNat + (readReg s y).toNat) % 256 ∧
    (eaStack s).toNat = 0xFF00 + (rawReg s 0xA).toNat

/-! ## Reset, load, boot -/

/-- R7: the parameters right after reset are the spec's defaults, all eleven (their values are the spec's own decisions,
log 2; that the state carries them is log 1). -/
def Obligations.ResetCarriesTheDefaultParameters : Prop :=
  State.reset.params.subSel = ⟨0x0, 0x1, 0x2, 0x0, 0x1, 0x2, 0x0, 0x1, 0x2, 0x3, 0x4, 0x5⟩ ∧
  State.reset.params.readable = [0x0, 0x1, 0x2, 0xA, 0xB, 0xE, 0xF] ∧
  State.reset.params.writable = [0x0, 0x1, 0x2, 0xA, 0xB, 0xE, 0xF] ∧
  State.reset.params.reservedReadValue = 0x00 ∧ State.reset.params.flagPos = ⟨0, 1, 2, 3⟩ ∧
  State.reset.params.subIsAdditive = true ∧ State.reset.params.nandSetsFlags = false ∧
  State.reset.params.pcallTarget = .registerPair 0xE 0xF ∧ State.reset.params.stidxSource = .embedded ∧
  State.reset.params.unrecognizedMode = .noop ∧ State.reset.params.sinkTrigger = .none ∧
  State.reset.params.WellFormed

/-- R46, R270, R271: reset from any state puts every element of the state at its reset value and leaves ROM alone; two
resets in a row give the same state as one; State.reset is such a state. -/
def Obligations.HostResetGivesTheResetState : Prop :=
  (∀ s : State,
    (∀ j, rawReg (hostReset s) j = 0x00) ∧ (hostReset s).flags = ⟨false, false, false, false⟩ ∧
    (hostReset s).halted = false ∧ (hostReset s).pc = 0x0000 ∧ (hostReset s).stage = ⟨0x00, 0x00, 0x00⟩ ∧
    (hostReset s).fetchCount = 0 ∧ (hostReset s).microStep = 0 ∧ (∀ a, ramRead (hostReset s) a = 0x00) ∧
    (hostReset s).rom = s.rom ∧ hostReset (hostReset s) = hostReset s) ∧
  hostReset State.reset = State.reset

/-- R273, R58: load puts an image of at most 65536 bytes at ROM[0..] and zeros after it, in canonical form, and changes
nothing but ROM; a longer image is refused. -/
def Obligations.HostLoadPutsTheImageInRom : Prop :=
  ∀ (image : List Byte) (s : State),
    (image.length ≤ 65536 → ∃ t, hostLoad image s = .next t ∧
      (∀ a : Addr, romRead t a = image.getD a.toNat 0x00) ∧ Memory.wf t.rom ∧ t = { s with rom := t.rom }) ∧
    (65536 < image.length → hostLoad image s = .refused .imageTooLarge)

/-- R123, R47: the invariants hold at State.reset, and at every reset of a state whose ROM is in canonical form. -/
def Obligations.InvariantsAtReset : Prop :=
  (SeqInv State.reset ∧ MemInv State.reset ∧ StagedFromRom State.reset ∧ Idle State.reset) ∧
  ∀ s : State, Memory.wf s.rom →
    SeqInv (hostReset s) ∧ MemInv (hostReset s) ∧ StagedFromRom (hostReset s) ∧ Idle (hostReset s)

/-- R47, R272: after reset the header JMP, read from ROM[0], takes 4 steps and leaves pc at the entry point, big-endian
in ROM[1] and ROM[2], with every register and flag still 0. -/
def Obligations.HeaderJumpReachesTheEntryPoint : Prop :=
  ∀ s : State, romRead s 0x0000 = packNibbles 0xE s.params.subSel.jmp →
    ∃ t, run 4 (hostReset s) = .next t ∧
      t = { hostReset s with pc := catBytes (romRead s 0x0001) (romRead s 0x0002) }

/-! ## The sequencer -/

/-- R122: a halted step changes nothing. -/
def Obligations.HaltedStepChangesNothing : Prop :=
  ∀ s : State, s.halted = true → step s = .next s

/-- R124, R34: a fetch step puts the ROM byte at the full pc into slot fetchCount, counts it, moves pc on by one (it
wraps at 0xFFFF), and changes nothing else. -/
def Obligations.FetchStepStagesOneByte : Prop :=
  ∀ s : State, s.halted = false → (s.fetchCount = 0 ∨ s.fetchCount.val < stagedLen s) →
    ∃ t, step s = .next t ∧
      (∀ j, j < 3 → stageByte t j = if j = s.fetchCount.val then romRead s s.pc else stageByte s j) ∧
      t.fetchCount.val = s.fetchCount.val + 1 ∧ t.pc.toNat = (s.pc.toNat + 1) % 65536 ∧
      t = { s with stage := t.stage, fetchCount := t.fetchCount, pc := t.pc }

/-- R125: when the instruction's bytes are staged, the step is EXEC of the instruction they decode to, with nothing
added around it: exec holds the completion of R126 as well. -/
def Obligations.ExecuteStepIsExecOfTheStagedInstruction : Prop :=
  ∀ (i : Instr) (s : State), s.halted = false → fetchPending s = false → decodeStaged s = .ok i →
    step s = exec i s

/-- R124, R125, R32: when the ROM bytes at pc decode to `i`, as many steps as `i` has bytes fetch them; then only pc
and the sequencer have changed, pc stands after the instruction, and the next step is exec of `i`. -/
def Obligations.BytesAtPcAreFetchedAndExecuted : Prop :=
  ∀ (i : Instr) (s : State) (rest : List Byte), Idle s →
    decode s.params.subSel [romRead s s.pc, romRead s (s.pc + 1), romRead s (s.pc + 2)] = .ok (i, rest) →
    ∃ t, run (instrLen (hiNibble (romRead s s.pc))) s = .next t ∧
      t = { s with stage := t.stage, fetchCount := t.fetchCount,
                   pc := s.pc + BitVec.ofNat 16 (instrLen (hiNibble (romRead s s.pc))) } ∧
      Executing i 0 t ∧ step t = exec i t

/-- R129: an unassigned opcode, under the default mode, is fetched to its family length and runs one micro-step: LEN + 1
steps that leave only pc advanced by LEN, and the model's mark set. -/
def Obligations.UnrecognizedOpcodeOnlyAdvancesPc : Prop :=
  ∀ (s : State) (e : DecodeError), Idle s → s.params.unrecognizedMode = .noop →
    decodeStage s.params.subSel (romRead s s.pc) (romRead s (s.pc + 1)) (romRead s (s.pc + 2)) = .error e →
    run (instrLen (hiNibble (romRead s s.pc)) + 1) s =
      .next { s with pc := s.pc + BitVec.ofNat 16 (instrLen (hiNibble (romRead s s.pc))),
                     unrecognizedRan := true }

/-- R123, R41 to R43, R126, R127: every step keeps the sequencer invariant. -/
def Obligations.EveryStepKeepsTheSequencerInvariant : Prop :=
  ∀ s t : State, SeqInv s → step s = .next t → SeqInv t

/-- R250, R133: from a state of the sequencer invariant no run ever faults or is refused: step always has work. -/
def Obligations.NoRunStopsWithAnException : Prop :=
  ∀ (k : Nat) (s : State), SeqInv s → ∃ t, run k s = .next t ∧ SeqInv t

/-- R132, and the model's choice of log 5: exec answers a next state exactly below the instruction's micro-step count,
and past it stops with the fault microStepOutOfTable. -/
def Obligations.ExecAnswersNextExactlyBelowTheStepCount : Prop :=
  ∀ (i : Instr) (s : State),
    (s.microStep < microSteps i → ∃ t, exec i s = .next t) ∧
    (microSteps i ≤ s.microStep → exec i s = .fault .microStepOutOfTable)

/-- R277: from its first fetch to its completion an instruction takes LEN + micro-steps step() calls, whatever its
operands; no call before the last completes it; STOP ends halted. -/
def Obligations.InstructionTakesItsStepCount : Prop :=
  ∀ (i : Instr) (x : Nibble) (s : State), s.params.subSel.Distinct → Idle s →
    (∀ n b, (encodeWith s.params.subSel x i)[n]? = some b → romRead s (s.pc + BitVec.ofNat 16 n) = b) →
    (∃ t, run ((encodeWith s.params.subSel x i).length + microSteps i) s = .next t ∧
      (i ≠ .stop → Idle t) ∧ (i = .stop → t.halted = true)) ∧
    ∀ k, 0 < k → k < (encodeWith s.params.subSel x i).length + microSteps i →
      ∃ u, run k s = .next u ∧ u.halted = false ∧ u.fetchCount ≠ 0

/-! ## Rules about every step -/

/-- R66, log 11: every step keeps both memories in canonical form. -/
def Obligations.EveryStepKeepsTheMemoriesCanonical : Prop :=
  ∀ s t : State, MemInv s → step s = .next t → MemInv t

/-- R32, R41, R69: every step keeps the staged bytes equal to the ROM bytes just before pc until the first micro-step
has run. -/
def Obligations.StagedBytesStayTheRomBytesBeforePc : Prop :=
  ∀ s t : State, SeqInv s → StagedFromRom s → step s = .next t → StagedFromRom t

/-- R57, R69: no step changes ROM; and none changes the parameters (log 1). -/
def Obligations.NoStepChangesRomOrParameters : Prop :=
  ∀ s t : State, step s = .next t → t.rom = s.rom ∧ t.params = s.params

/-- R36: a step that changes a flag executes an instruction that calls updateFlags. -/
def Obligations.OnlyFlagWritersChangeFlags : Prop :=
  ∀ s t : State, step s = .next t → t.flags ≠ s.flags →
    ∃ i, s.halted = false ∧ fetchPending s = false ∧ decodeStaged s = .ok i ∧ WritesFlags s.params i

/-- R33: pc moves by one in a fetch step and changes in no other way, but for the listed writes, RET's of one byte each,
and reset. -/
def Obligations.PcChangesOnlyByFetchAndTransfers : Prop :=
  (∀ s t : State, step s = .next t →
    (s.halted = false → fetchPending s = true → t.pc = s.pc + 1) ∧
    (s.halted = true → t.pc = s.pc) ∧
    (s.halted = false → fetchPending s = false → t.pc ≠ s.pc →
      ∃ i, decodeStaged s = .ok i ∧ WritesPc s i) ∧
    (s.halted = false → fetchPending s = false → decodeStaged s = .ok .ret →
      (s.microStep = 1 → lowByte t.pc = lowByte s.pc) ∧ (s.microStep = 3 → highByte t.pc = highByte s.pc))) ∧
  ∀ s : State, (hostReset s).pc = 0x0000

/-- R50, R59, R63: a micro-step changes no byte of RAM but the one at the address that the meaning computes, and only
STO, STIDX, PUSH, CALL and PCALL compute one. -/
def Obligations.StoresReachOnlyTheComputedAddress : Prop :=
  ∀ (i : Instr) (s t : State), exec i s = .next t →
    ∀ b : Addr, storeAddress i s ≠ some b → ramRead t b = ramRead s b

/-- R39, R259: only STOP sets halted. -/
def Obligations.OnlyStopHaltsTheBlock : Prop :=
  ∀ s t : State, step s = .next t → s.halted = false → t.halted = true →
    fetchPending s = false ∧ decodeStaged s = .ok .stop

/-- R129: the mark is set by the execute step of an UNRECOGNIZED opcode, by nothing else, and no step clears it. -/
def Obligations.MarkRecordsUnrecognizedOpcodes : Prop :=
  ∀ s t : State, step s = .next t →
    (t.unrecognizedRan = true ↔ s.unrecognizedRan = true ∨
      (s.halted = false ∧ fetchPending s = false ∧ ∃ e, decodeStaged s = .error e))

/-- R28 to R31: a step changes a slot that is not writable only if the slot is rsp or rbp and the step is a raw write of
PUSH, POP, CALL, PCALL or RET. -/
def Obligations.UnwritableSlotsKeepTheirValue : Prop :=
  (∀ (s t : State) (j : RegIdx), step s = .next t → j ∉ s.params.writable → j ≠ 0xA → j ≠ 0xB →
    rawReg t j = rawReg s j) ∧
  ∀ (s t : State) (j : RegIdx), step s = .next t → j ∉ s.params.writable → rawReg t j ≠ rawReg s j →
    ∃ i, s.halted = false ∧ fetchPending s = false ∧ decodeStaged s = .ok i ∧ WritesStackReg s j i

/-- R261, R129 (logs 3, 6, 7): what SINK_TRIGGER means; what a step hands to the sink under it, that is the byte that the
micro-step writes, once, if the trigger names the micro-step; and nothing reads the trace or the mark back: two states
that differ only there step to states that differ only there. -/
def Obligations.SinkFollowsItsTriggerAndIsNeverReadBack : Prop :=
  (∀ (m : Mnemonic) (w : Write) (s : State),
    sinkFires .none m w s = false ∧
    (∀ first last : Addr, sinkFires (.writeWhen (.ramWriteIn first last)) m w s = true ↔
      ∃ a, w.dest = .ram a ∧ first ≤ a ∧ a ≤ last) ∧
    (∀ i, sinkFires (.writeWhen (.registerWrite i)) m w s = true ↔ w.dest = .reg i) ∧
    (∀ p, sinkFires (.writeWhen (.instruction p)) m w s = true ↔ m = p) ∧
    (∀ x first last, sinkFires (.writeWhen (.within x first last)) m w s = true ↔
      first ≤ sinkValue x w s ∧ sinkValue x w s ≤ last) ∧
    (sinkValue .byte w s = w.byte.toNat ∧ sinkValue .microStep w s = s.microStep ∧ sinkValue .pc w s = s.pc.toNat ∧
      sinkValue .flagZ w s = s.flags.z.toNat ∧ sinkValue .flagC w s = s.flags.c.toNat ∧
      sinkValue .flagO w s = s.flags.o.toNat ∧ sinkValue .flagN w s = s.flags.n.toNat) ∧
    (∀ (i : RegIdx) (j : Fin 3) (b : Addr),
      sinkValue (.reg i) w s = (rawReg s i).toNat ∧ sinkValue (.staged j) w s = (stageByte s j.val).toNat ∧
      sinkValue (.rom b) w s = (romRead s b).toNat ∧ sinkValue (.ram b) w s = (ramRead s b).toNat) ∧
    (∀ c, sinkFires (.writeWhen (.not c)) m w s = true ↔ sinkFires (.writeWhen c) m w s = false) ∧
    (∀ c d, sinkFires (.writeWhen (.and c d)) m w s = true ↔
      sinkFires (.writeWhen c) m w s = true ∧ sinkFires (.writeWhen d) m w s = true) ∧
    (∀ c d, sinkFires (.writeWhen (.or c d)) m w s = true ↔
      sinkFires (.writeWhen c) m w s = true ∨ sinkFires (.writeWhen d) m w s = true)) ∧
  (∀ (i : Instr) (s t : State), exec i s = .next t →
    (∀ w, writtenByte i s = some w → Holds w t ∧
      t.sinkTrace = s.sinkTrace ++
        if sinkFires s.params.sinkTrigger (mnemonic i) w s = true then [w.byte] else []) ∧
    (writtenByte i s = none → RegsKept s t ∧ RamKept s t ∧ SinkKept s t)) ∧
  (∀ s t : State, step s = .next t →
    (s.params.sinkTrigger = .none → SinkKept s t) ∧
    (t.sinkTrace ≠ s.sinkTrace → ∃ i w, s.halted = false ∧ fetchPending s = false ∧ decodeStaged s = .ok i ∧
      writtenByte i s = some w)) ∧
  ∀ (s t : State) (trace : List Byte) (mark : Bool), step s = .next t →
    ∃ u, step { s with sinkTrace := trace, unrecognizedRan := mark } = .next u ∧
      u = { t with sinkTrace := u.sinkTrace, unrecognizedRan := u.unrecognizedRan }

/-- R35: the flag bit positions are invisible to programs: changing them changes no step. -/
def Obligations.FlagPositionsAreInvisibleToPrograms : Prop :=
  ∀ (s t : State) (p : FlagPos), step s = .next t →
    step { s with params := { s.params with flagPos := p } } =
      .next { t with params := { t.params with flagPos := p } }

/-! ## Data processing

Here and below, `RegWrittenBy`, `RawWrittenBy`, `RamWrittenBy` and `SinkGets` hand the byte that a micro-step writes to the
sink exactly if SINK_TRIGGER names the micro-step (R261, D19; the conditions, and that a micro-step which writes no byte hands
over nothing, are log 3's), and `RegWrittenBy` drops a write to an index that is not writable (R29, D4). -/

/-- R151: ADD, its encoding, its result, its flags, its frame; a reserved destination drops the write (R29, D4) and the flags
are still written; the sink is R261's (D19, log 3). -/
def Obligations.AddWritesSumAndFlags : Prop :=
  (∀ (q : SubSel) (d a b : RegIdx) (b2 : Byte),
    decodeStage q (packNibbles 0x4 d) (packNibbles a b) b2 = .ok (.add d a b)) ∧
  ∀ (d a b : RegIdx) (s : State), s.microStep = 0 →
    ∃ t, exec (.add d a b) s = .next t ∧
      RegWrittenBy .add d (readReg s a + readReg s b) s t ∧
      FlagsUpdated (readReg s d) (readReg s a + readReg s b) true t ∧ DoneKeepingRamPc s t

/-- R152: ADC adds the carry as it stood before; a dropped write is D4, the sink D19 and log 3. -/
def Obligations.AdcWritesSumWithCarryAndFlags : Prop :=
  (∀ (q : SubSel) (d a b : RegIdx) (b2 : Byte),
    decodeStage q (packNibbles 0x5 d) (packNibbles a b) b2 = .ok (.adc d a b)) ∧
  ∀ (d a b : RegIdx) (s : State), s.microStep = 0 →
    ∃ t, exec (.adc d a b) s = .next t ∧
      RegWrittenBy .adc d (readReg s a + readReg s b + if s.flags.c = true then 1 else 0) s t ∧
      FlagsUpdated (readReg s d) (readReg s a + readReg s b + if s.flags.c = true then 1 else 0) true t ∧
      DoneKeepingRamPc s t

/-- R153: IADD; any value of the don't-care nibble `x`; a dropped write is D4, the sink D19 and log 3. -/
def Obligations.IaddWritesSumAndFlags : Prop :=
  (∀ (q : SubSel) (d a x : Nibble) (v : Byte),
    decodeStage q (packNibbles 0xC d) (packNibbles a x) v = .ok (.iadd d a v)) ∧
  ∀ (d a : RegIdx) (v : Byte) (s : State), s.microStep = 0 →
    ∃ t, exec (.iadd d a v) s = .next t ∧
      RegWrittenBy .iadd d (readReg s a + v) s t ∧
      FlagsUpdated (readReg s d) (readReg s a + v) true t ∧ DoneKeepingRamPc s t

/-- R154: SUB, with isAdditive the parameter SUB_IS_ADDITIVE. -/
def Obligations.SubWritesDifferenceAndFlags : Prop :=
  (∀ (q : SubSel) (d a b : RegIdx) (b2 : Byte),
    decodeStage q (packNibbles 0x7 d) (packNibbles a b) b2 = .ok (.sub d a b)) ∧
  ∀ (d a b : RegIdx) (s : State), s.microStep = 0 →
    ∃ t, exec (.sub d a b) s = .next t ∧
      RegWrittenBy .sub d (readReg s a - readReg s b) s t ∧
      FlagsUpdated (readReg s d) (readReg s a - readReg s b) s.params.subIsAdditive t ∧ DoneKeepingRamPc s t

/-- R155: SBC subtracts the carry as it stood before: `a - b - C`. -/
def Obligations.SbcWritesDifferenceWithCarryAndFlags : Prop :=
  (∀ (q : SubSel) (d a b : RegIdx) (b2 : Byte),
    decodeStage q (packNibbles 0x8 d) (packNibbles a b) b2 = .ok (.sbc d a b)) ∧
  ∀ (d a b : RegIdx) (s : State), s.microStep = 0 →
    ∃ t, exec (.sbc d a b) s = .next t ∧
      RegWrittenBy .sbc d (readReg s a - readReg s b - if s.flags.c = true then 1 else 0) s t ∧
      FlagsUpdated (readReg s d) (readReg s a - readReg s b - if s.flags.c = true then 1 else 0)
        s.params.subIsAdditive t ∧
      DoneKeepingRamPc s t

/-- R156: ISUB; any value of the don't-care nibble `x`. -/
def Obligations.IsubWritesDifferenceAndFlags : Prop :=
  (∀ (q : SubSel) (d a x : Nibble) (v : Byte),
    decodeStage q (packNibbles 0xD d) (packNibbles a x) v = .ok (.isub d a v)) ∧
  ∀ (d a : RegIdx) (v : Byte) (s : State), s.microStep = 0 →
    ∃ t, exec (.isub d a v) s = .next t ∧
      RegWrittenBy .isub d (readReg s a - v) s t ∧
      FlagsUpdated (readReg s d) (readReg s a - v) s.params.subIsAdditive t ∧ DoneKeepingRamPc s t

/-- R157: CMP writes no register; its flags come from the difference with prev the first operand, and C is cleared. -/
def Obligations.CmpWritesFlagsOnly : Prop :=
  (∀ (q : SubSel) (a b : RegIdx) (b2 : Byte), q.Distinct →
    decodeStage q (packNibbles 0x1 q.cmp) (packNibbles a b) b2 = .ok (.cmp a b)) ∧
  ∀ (a b : RegIdx) (s : State), s.microStep = 0 →
    ∃ t, exec (.cmp a b) s = .next t ∧ RegsKept s t ∧
      FlagsUpdated (readReg s a) (readReg s a - readReg s b) false t ∧
      (t.flags.z = true ↔ readReg s a = readReg s b) ∧ t.flags.c = false ∧ SinkKept s t ∧ DoneKeepingRamPc s t

/-- R158: NAND; the flags are kept, unless NAND_SETS_FLAGS. -/
def Obligations.NandWritesComplementOfAnd : Prop :=
  (∀ (q : SubSel) (d a b : RegIdx) (b2 : Byte),
    decodeStage q (packNibbles 0xB d) (packNibbles a b) b2 = .ok (.nand d a b)) ∧
  ∀ (d a b : RegIdx) (s : State), s.microStep = 0 →
    ∃ t, exec (.nand d a b) s = .next t ∧
      RegWrittenBy .nand d (~~~(readReg s a &&& readReg s b)) s t ∧
      (s.params.nandSetsFlags = false → t.flags = s.flags) ∧
      (s.params.nandSetsFlags = true →
        FlagsUpdated (readReg s d) (~~~(readReg s a &&& readReg s b)) false t) ∧
      DoneKeepingRamPc s t

/-- R159: IMM; no flag changes. -/
def Obligations.ImmWritesTheImmediate : Prop :=
  (∀ (q : SubSel) (d : RegIdx) (v b2 : Byte), decodeStage q (packNibbles 0xA d) v b2 = .ok (.imm d v)) ∧
  ∀ (d : RegIdx) (v : Byte) (s : State), s.microStep = 0 →
    ∃ t, exec (.imm d v) s = .next t ∧ RegWrittenBy .imm d v s t ∧ t.flags = s.flags ∧ DoneKeepingRamPc s t

/-! ## Loads and stores -/

/-- R180: STO stores the register at rbnk:radr, and that one byte only; the sink clause is R261's (D19, log 3). -/
def Obligations.StoStoresAtBankAndAddress : Prop :=
  (∀ (q : SubSel) (r x : Nibble) (b2 : Byte), q.Distinct →
    decodeStage q (packNibbles 0x1 q.sto) (packNibbles r x) b2 = .ok (.sto r)) ∧
  ∀ (r : RegIdx) (s : State), s.microStep = 0 →
    ∃ t, exec (.sto r) s = .next t ∧
      RamWrittenBy .sto (catBytes (rawReg s 0xE) (rawReg s 0xF)) (readReg s r) s t ∧
      RegsKept s t ∧ t.flags = s.flags ∧ t.pc = s.pc ∧ CoreKept s t ∧ Completed t

/-- R181: LDROM loads the ROM byte at rbnk:radr. -/
def Obligations.LdromLoadsFromRom : Prop :=
  (∀ (q : SubSel) (d : RegIdx) (b1 b2 : Byte), decodeStage q (packNibbles 0x3 d) b1 b2 = .ok (.ldrom d)) ∧
  ∀ (d : RegIdx) (s : State), s.microStep = 0 →
    ∃ t, exec (.ldrom d) s = .next t ∧
      RegWrittenBy .ldrom d (romRead s (catBytes (rawReg s 0xE) (rawReg s 0xF))) s t ∧
      t.flags = s.flags ∧ DoneKeepingRamPc s t

/-- R182: LDRAM loads the RAM byte at rbnk:radr. -/
def Obligations.LdramLoadsFromRam : Prop :=
  (∀ (q : SubSel) (d : RegIdx) (b1 b2 : Byte), decodeStage q (packNibbles 0xF d) b1 b2 = .ok (.ldram d)) ∧
  ∀ (d : RegIdx) (s : State), s.microStep = 0 →
    ∃ t, exec (.ldram d) s = .next t ∧
      RegWrittenBy .ldram d (ramRead s (catBytes (rawReg s 0xE) (rawReg s 0xF))) s t ∧
      t.flags = s.flags ∧ DoneKeepingRamPc s t

/-- R183: STIDX stores at rbnk:(X + Y), the sum wrapping in the bank; the value is the register of the opcode's low
nibble, or the raw slot x[0x0] under the other STIDX_SOURCE; the sink clause is R261's (D19, log 3). -/
def Obligations.StidxStoresAtTheIndexedAddress : Prop :=
  (∀ (q : SubSel) (a x y : RegIdx) (b2 : Byte),
    decodeStage q (packNibbles 0x6 a) (packNibbles x y) b2 = .ok (.stidx a x y)) ∧
  ∀ (a x y : RegIdx) (s : State), s.microStep = 0 →
    ∃ t, exec (.stidx a x y) s = .next t ∧
      (s.params.stidxSource = .embedded →
        RamWrittenBy .stidx (catBytes (rawReg s 0xE) (readReg s x + readReg s y)) (readReg s a) s t) ∧
      (s.params.stidxSource = .ra →
        RamWrittenBy .stidx (catBytes (rawReg s 0xE) (readReg s x + readReg s y)) (rawReg s 0x0) s t) ∧
      RegsKept s t ∧ t.flags = s.flags ∧ t.pc = s.pc ∧ CoreKept s t ∧ Completed t

/-- R184: LDIDX loads the RAM byte at rbnk:(X + Y). -/
def Obligations.LdidxLoadsFromTheIndexedAddress : Prop :=
  (∀ (q : SubSel) (d x y : RegIdx) (b2 : Byte),
    decodeStage q (packNibbles 0x9 d) (packNibbles x y) b2 = .ok (.ldidx d x y)) ∧
  ∀ (d x y : RegIdx) (s : State), s.microStep = 0 →
    ∃ t, exec (.ldidx d x y) s = .next t ∧
      RegWrittenBy .ldidx d (ramRead s (catBytes (rawReg s 0xE) (readReg s x + readReg s y))) s t ∧
      t.flags = s.flags ∧ DoneKeepingRamPc s t

/-! ## Control transfer -/

/-- R200: JMP sets pc to the big-endian target and changes nothing but pc and the sequencer. -/
def Obligations.JmpSetsPcToTheTarget : Prop :=
  (∀ (q : SubSel) (b1 b2 : Byte), q.Distinct →
    decodeStage q (packNibbles 0xE q.jmp) b1 b2 = .ok (.jmp (catBytes b1 b2))) ∧
  ∀ (a : Addr) (s : State), s.microStep = 0 →
    ∃ t, exec (.jmp a) s = .next t ∧ t.pc = a ∧ RegsKept s t ∧ t.flags = s.flags ∧ RamKept s t ∧
      SinkKept s t ∧ CoreKept s t ∧ Completed t

/-- R201 to R204: each conditional jump tests its one flag, jumps if it is set, and otherwise leaves pc alone; both ways
it completes in this one micro-step and changes nothing else. -/
def Obligations.ConditionalJumpsTestTheirFlag : Prop :=
  (∀ (q : SubSel) (b1 b2 : Byte), q.Distinct →
    decodeStage q (packNibbles 0xE q.jz) b1 b2 = .ok (.jz (catBytes b1 b2)) ∧
    decodeStage q (packNibbles 0xE q.jn) b1 b2 = .ok (.jn (catBytes b1 b2)) ∧
    decodeStage q (packNibbles 0xE q.jc) b1 b2 = .ok (.jc (catBytes b1 b2)) ∧
    decodeStage q (packNibbles 0xE q.jo) b1 b2 = .ok (.jo (catBytes b1 b2))) ∧
  ∀ (a : Addr) (s : State), s.microStep = 0 →
    ∀ c ∈ [(Instr.jz a, s.flags.z), (Instr.jn a, s.flags.n), (Instr.jc a, s.flags.c), (Instr.jo a, s.flags.o)],
      ∃ t, exec c.1 s = .next t ∧ (t.pc = if c.2 = true then a else s.pc) ∧ RegsKept s t ∧
        t.flags = s.flags ∧ RamKept s t ∧ SinkKept s t ∧ CoreKept s t ∧ Completed t

/-- R205, R127: STOP sets halted and changes nothing else, the sequencer included. -/
def Obligations.StopOnlySetsHalted : Prop :=
  (∀ (q : SubSel) (b1 b2 : Byte), decodeStage q (packNibbles 0x0 q.stop) b1 b2 = .ok .stop) ∧
  ∀ s : State, s.microStep = 0 → exec .stop s = .next { s with halted := true }

/-! ## Composite operations, micro-step by micro-step -/

/-- R221: the two micro-steps of PUSH; the sink clause is R261's (D19, log 3). -/
def Obligations.PushMicroSteps : Prop :=
  (∀ (q : SubSel) (r x : Nibble) (b2 : Byte), q.Distinct →
    decodeStage q (packNibbles 0x1 q.push) (packNibbles r x) b2 = .ok (.push r)) ∧
  ∀ (r : RegIdx) (s : State),
    (s.microStep = 0 → ∃ t, exec (.push r) s = .next t ∧
      RamWrittenBy .push (eaStack s) (readReg s r) s t ∧ RegsKept s t ∧
      t.flags = s.flags ∧ t.pc = s.pc ∧ CoreKept s t ∧ Continued s t) ∧
    (s.microStep = 1 → ∃ t, exec (.push r) s = .next t ∧
      RawWrittenBy .push 0xA (rawReg s 0xA + 1) s t ∧ t.flags = s.flags ∧ DoneKeepingRamPc s t)

/-- R222: the two micro-steps of POP; a destination that is not writable drops the write (R29, D4) and rsp still moves; the
sink is R261's (D19, log 3). -/
def Obligations.PopMicroSteps : Prop :=
  (∀ (q : SubSel) (d : RegIdx) (b1 b2 : Byte), decodeStage q (packNibbles 0x2 d) b1 b2 = .ok (.pop d)) ∧
  ∀ (d : RegIdx) (s : State),
    (s.microStep = 0 → ∃ t, exec (.pop d) s = .next t ∧
      RawWrittenBy .pop 0xA (rawReg s 0xA - 1) s t ∧ RamKept s t ∧
      t.flags = s.flags ∧ t.pc = s.pc ∧ CoreKept s t ∧ Continued s t) ∧
    (s.microStep = 1 → ∃ t, exec (.pop d) s = .next t ∧
      RegWrittenBy .pop d (ramRead s (eaStack s)) s t ∧ t.flags = s.flags ∧ DoneKeepingRamPc s t)

/-- R223: the seven micro-steps of CALL, the target read from the staged bytes; the sink clause is R261's (D19, log 3). -/
def Obligations.CallMicroSteps : Prop :=
  (∀ (q : SubSel) (b1 b2 : Byte), q.Distinct →
    decodeStage q (packNibbles 0xE q.call) b1 b2 = .ok (.call (catBytes b1 b2))) ∧
  ∀ (a : Addr) (s : State),
    (s.microStep ∈ [0, 2, 4] → ∃ t, exec (.call a) s = .next t ∧
      RamWrittenBy .call (eaStack s) (if s.microStep = 0 then rawReg s 0xB
        else if s.microStep = 2 then lowByte s.pc else highByte s.pc) s t ∧
      RegsKept s t ∧ t.flags = s.flags ∧ t.pc = s.pc ∧ CoreKept s t ∧ Continued s t) ∧
    (s.microStep ∈ [1, 3, 5] → ∃ t, exec (.call a) s = .next t ∧
      RawWrittenBy .call 0xA (rawReg s 0xA + 1) s t ∧ (t.pc = if s.microStep = 5 then a else s.pc) ∧
      RamKept s t ∧ t.flags = s.flags ∧ CoreKept s t ∧ Continued s t) ∧
    (s.microStep = 6 → ∃ t, exec (.call a) s = .next t ∧
      RawWrittenBy .call 0xB (rawReg s 0xA) s t ∧ t.flags = s.flags ∧ DoneKeepingRamPc s t)

/-- R224: the seven micro-steps of PCALL; row 5 takes pc from rbnk:radr under the default PCALL_TARGET, and for the
other values from what the parameter names (log 3); the sink clause is R261's (D19, log 3). -/
def Obligations.PcallMicroSteps : Prop :=
  (∀ (q : SubSel) (b1 b2 : Byte), q.Distinct →
    decodeStage q (packNibbles 0x0 q.pcall) b1 b2 = .ok .pcall) ∧
  ∀ s : State,
    (s.microStep ∈ [0, 2, 4] → ∃ t, exec .pcall s = .next t ∧
      RamWrittenBy .pcall (eaStack s) (if s.microStep = 0 then rawReg s 0xB
        else if s.microStep = 2 then lowByte s.pc else highByte s.pc) s t ∧
      RegsKept s t ∧ t.flags = s.flags ∧ t.pc = s.pc ∧ CoreKept s t ∧ Continued s t) ∧
    (s.microStep ∈ [1, 3, 5] → ∃ t, exec .pcall s = .next t ∧
      RawWrittenBy .pcall 0xA (rawReg s 0xA + 1) s t ∧ (s.microStep ≠ 5 → t.pc = s.pc) ∧
      (∀ hi lo, s.microStep = 5 → s.params.pcallTarget = .registerPair hi lo →
        t.pc = catBytes (rawReg s hi) (rawReg s lo)) ∧
      (∀ a, s.microStep = 5 → s.params.pcallTarget = .address a → t.pc = a) ∧
      RamKept s t ∧ t.flags = s.flags ∧ CoreKept s t ∧ Continued s t) ∧
    (s.microStep = 6 → ∃ t, exec .pcall s = .next t ∧
      RawWrittenBy .pcall 0xB (rawReg s 0xA) s t ∧ t.flags = s.flags ∧ DoneKeepingRamPc s t)

/-- R225: the six micro-steps of RET; the return address goes into pc one byte at a time, the high byte first. -/
def Obligations.RetMicroSteps : Prop :=
  (∀ (q : SubSel) (b1 b2 : Byte), q.Distinct → decodeStage q (packNibbles 0x0 q.ret) b1 b2 = .ok .ret) ∧
  ∀ s : State,
    (s.microStep ∈ [0, 2, 4] → ∃ t, exec .ret s = .next t ∧
      RawWrittenBy .ret 0xA ((if s.microStep = 0 then rawReg s 0xB else rawReg s 0xA) - 1) s t ∧
      RamKept s t ∧ t.flags = s.flags ∧ t.pc = s.pc ∧ CoreKept s t ∧ Continued s t) ∧
    (s.microStep ∈ [1, 3] → ∃ t, exec .ret s = .next t ∧
      (t.pc = if s.microStep = 1 then catBytes (ramRead s (eaStack s)) (lowByte s.pc)
        else catBytes (highByte s.pc) (ramRead s (eaStack s))) ∧
      SinkGets .ret (some ⟨if s.microStep = 1 then .pcHigh else .pcLow, ramRead s (eaStack s)⟩) s t ∧
      RegsKept s t ∧ RamKept s t ∧ t.flags = s.flags ∧ CoreKept s t ∧ Continued s t) ∧
    (s.microStep = 5 → ∃ t, exec .ret s = .next t ∧
      RawWrittenBy .ret 0xB (ramRead s (eaStack s)) s t ∧ t.flags = s.flags ∧ DoneKeepingRamPc s t)

/-! ## Composite operations as wholes -/

/-- R223's net effect, and R224's under the default PCALL_TARGET: seven steps of a staged CALL or PCALL store rbp and
the return address on the stack, low byte first, leave rsp = rbp = s + 3, and transfer; every other register, byte
and flag is kept. -/
def Obligations.CallStoresTheLinkageAndTransfers : Prop :=
  ∀ (i : Instr) (target : Addr) (s : State), Executing i 0 s →
    (i = .call target ∨ (i = .pcall ∧ s.params.pcallTarget = .registerPair 0xE 0xF ∧
      target = catBytes (rawReg s 0xE) (rawReg s 0xF))) →
    ∃ t, run 7 s = .next t ∧ t.pc = target ∧
      (∀ b, ramRead t b =
        if b = catBytes 0xFF (rawReg s 0xA) then rawReg s 0xB
        else if b = catBytes 0xFF (rawReg s 0xA + 1) then lowByte s.pc
        else if b = catBytes 0xFF (rawReg s 0xA + 2) then highByte s.pc
        else ramRead s b) ∧
      (∀ j, rawReg t j = if j = 0xA ∨ j = 0xB then rawReg s 0xA + 3 else rawReg s j) ∧
      (s.params.sinkTrigger = .none → SinkKept s t) ∧ t.flags = s.flags ∧ CoreKept s t ∧ Completed t

/-- R225's net effect: six steps of a staged RET take pc, rbp and rsp from the frame at rbp; rsp's value at entry is
ignored; every other register, every byte of RAM and every flag is kept. -/
def Obligations.RetRestoresFromTheFrame : Prop :=
  ∀ s : State, Executing .ret 0 s →
    ∃ t, run 6 s = .next t ∧
      t.pc = catBytes (ramRead s (catBytes 0xFF (rawReg s 0xB - 1))) (ramRead s (catBytes 0xFF (rawReg s 0xB - 2))) ∧
      (∀ j, rawReg t j =
        if j = 0xA then rawReg s 0xB - 3
        else if j = 0xB then ramRead s (catBytes 0xFF (rawReg s 0xB - 3)) else rawReg s j) ∧
      (s.params.sinkTrigger = .none → SinkKept s t) ∧ RamKept s t ∧ t.flags = s.flags ∧ CoreKept s t ∧ Completed t

/-- R226: a RET that finds rbp and the three linkage bytes as a CALL or PCALL left them resumes exactly after that call,
with rsp and rbp back at their values before it. -/
def Obligations.RetUndoesItsCall : Prop :=
  ∀ (i : Instr) (s t u : State), (i = .pcall ∨ ∃ a, i = .call a) → Executing i 0 s → run 7 s = .next t →
    Executing .ret 0 u → rawReg u 0xB = rawReg t 0xB →
    (∀ k : Byte, k.toNat < 3 →
      ramRead u (catBytes 0xFF (rawReg s 0xA + k)) = ramRead t (catBytes 0xFF (rawReg s 0xA + k))) →
    ∃ w, run 6 u = .next w ∧ w.pc = s.pc ∧ rawReg w 0xA = rawReg s 0xA ∧ rawReg w 0xB = rawReg s 0xB
end

