-- ==== Sys2Proof/Laws/Memory.lean ====
section
/-! SUPPORT. The laws of the byte stores: read after write, canonical form kept by every operation, and the image. They hold
of every list, canonical or not, unless a lemma says otherwise. -/

namespace Sys2Proof.Machine

theorem readAt_eraseAt (m : Memory) (j k : Nat) :
    Memory.readAt (Memory.eraseAt m k) j = if j = k then unlistedByte else Memory.readAt m j := by
  induction m with
  | nil => simp [Memory.eraseAt, Memory.readAt]
  | cons c m ih =>
    obtain ⟨i, v⟩ := c
    by_cases hik : i = k
    · subst hik
      by_cases hj : j = i
      · subst hj; simpa [Memory.eraseAt] using ih
      · have : i ≠ j := fun h => hj h.symm
        simp [Memory.eraseAt, Memory.readAt, ih, hj, this]
    · by_cases hij : i = j
      · subst hij
        simp [Memory.eraseAt, Memory.readAt, hik]
      · simp [Memory.eraseAt, Memory.readAt, hik, hij, ih]

theorem readAt_insertAt (m : Memory) (j k : Nat) (v : Byte) (h : ∀ c ∈ m, c.1 ≠ k) :
    Memory.readAt (Memory.insertAt m k v) j = if j = k then v else Memory.readAt m j := by
  induction m with
  | nil =>
    by_cases hj : j = k
    · simp [Memory.insertAt, Memory.readAt, hj]
    · have : k ≠ j := fun e => hj e.symm
      simp [Memory.insertAt, Memory.readAt, hj, this]
  | cons c m ih =>
    obtain ⟨i, w⟩ := c
    have hik : i ≠ k := h (i, w) (by simp)
    have ih := ih fun c hc => h c (by simp [hc])
    by_cases hlt : k < i
    · by_cases hj : j = k
      · simp [Memory.insertAt, Memory.readAt, hlt, hj]
      · have : k ≠ j := fun e => hj e.symm
        simp [Memory.insertAt, Memory.readAt, hlt, hj, this]
    · by_cases hij : i = j
      · subst hij
        simp [Memory.insertAt, Memory.readAt, hlt, hik]
      · simp [Memory.insertAt, Memory.readAt, hlt, hij, ih]

theorem mem_eraseAt (m : Memory) (k : Nat) (c : Host.Cell) :
    c ∈ Memory.eraseAt m k ↔ c ∈ m ∧ c.1 ≠ k := by
  induction m with
  | nil => simp [Memory.eraseAt]
  | cons d m ih =>
    obtain ⟨i, v⟩ := d
    by_cases hik : i = k
    · subst hik
      simp only [Memory.eraseAt, if_true, ih, List.mem_cons]
      constructor
      · rintro ⟨hm, hne⟩; exact ⟨.inr hm, hne⟩
      · rintro ⟨rfl | hm, hne⟩
        · exact absurd rfl hne
        · exact ⟨hm, hne⟩
    · simp only [Memory.eraseAt, hik, if_false, List.mem_cons, ih]
      constructor
      · rintro (rfl | ⟨hm, hne⟩)
        · exact ⟨.inl rfl, hik⟩
        · exact ⟨.inr hm, hne⟩
      · rintro ⟨rfl | hm, hne⟩
        · exact .inl rfl
        · exact .inr ⟨hm, hne⟩

theorem mem_insertAt (m : Memory) (k : Nat) (v : Byte) (c : Host.Cell) :
    c ∈ Memory.insertAt m k v ↔ c = (k, v) ∨ c ∈ m := by
  induction m with
  | nil => simp [Memory.insertAt]
  | cons d m ih =>
    obtain ⟨i, w⟩ := d
    by_cases hlt : k < i
    · simp [Memory.insertAt, hlt]
    · simp only [Memory.insertAt, hlt, if_false, List.mem_cons, ih]
      tauto

/-- Read after write: the written byte at its own address, the old byte everywhere else (R66). -/
theorem readAt_writeAt (m : Memory) (j k : Nat) (v : Byte) :
    Memory.readAt (Memory.writeAt m k v) j = if j = k then v else Memory.readAt m j := by
  unfold Memory.writeAt
  split
  · next hv => rw [readAt_eraseAt, hv]
  · rw [readAt_insertAt _ _ _ _ fun c hc => ((mem_eraseAt m k c).mp hc).2, readAt_eraseAt]
    split <;> rfl

/-- Read after write, at 16-bit addresses. -/
theorem read_write (m : Memory) (a b : Addr) (v : Byte) :
    Memory.read (Memory.write m a v) b = if b = a then v else Memory.read m b := by
  simp [Memory.read, Memory.write, readAt_writeAt, BitVec.toNat_inj]

@[simp] theorem read_nil (a : Addr) : Memory.read [] a = unlistedByte := rfl

/-! ## Canonical form -/

theorem eraseAt_pairwise (m : Memory) (k : Nat) (h : m.Pairwise (fun c d => c.1 < d.1)) :
    (Memory.eraseAt m k).Pairwise (fun c d => c.1 < d.1) := by
  induction m with
  | nil => exact .nil
  | cons c m ih =>
    obtain ⟨hc, hm⟩ := List.pairwise_cons.mp h
    unfold Memory.eraseAt
    split
    · exact ih hm
    · exact List.pairwise_cons.mpr ⟨fun d hd => hc d ((mem_eraseAt m k d).mp hd).1, ih hm⟩

theorem insertAt_pairwise (m : Memory) (k : Nat) (v : Byte) (h : m.Pairwise (fun c d => c.1 < d.1))
    (hk : ∀ c ∈ m, c.1 ≠ k) : (Memory.insertAt m k v).Pairwise (fun c d => c.1 < d.1) := by
  induction m with
  | nil => exact List.pairwise_singleton _ _
  | cons c m ih =>
    obtain ⟨i, w⟩ := c
    obtain ⟨hc, hm⟩ := List.pairwise_cons.mp h
    have hik : i ≠ k := hk (i, w) (by simp)
    unfold Memory.insertAt
    split
    · next hlt =>
      refine List.pairwise_cons.mpr ⟨fun d hd => ?_, h⟩
      rcases List.mem_cons.mp hd with rfl | hd
      · exact hlt
      · exact hlt.trans (hc d hd)
    · next hlt =>
      refine List.pairwise_cons.mpr ⟨fun d hd => ?_, ih hm fun c hc' => hk c (by simp [hc'])⟩
      rcases (mem_insertAt m k v d).mp hd with rfl | hd
      · exact lt_of_le_of_ne (not_lt.mp hlt) hik
      · exact hc d hd

/-- Every write keeps the canonical form. -/
theorem write_wf (m : Memory) (a : Addr) (v : Byte) (h : Memory.wf m) : Memory.wf (Memory.write m a v) := by
  obtain ⟨hp, hb⟩ := h
  have he := eraseAt_pairwise m a.toNat hp
  have heb : ∀ c ∈ Memory.eraseAt m a.toNat, c.1 < 65536 ∧ c.2 ≠ unlistedByte :=
    fun c hc => hb c ((mem_eraseAt _ _ _).mp hc).1
  unfold Memory.write Memory.writeAt
  split
  · exact ⟨he, heb⟩
  · next hv =>
    refine ⟨insertAt_pairwise _ _ _ he fun c hc => ((mem_eraseAt _ _ _).mp hc).2, fun c hc => ?_⟩
    rcases (mem_insertAt _ _ _ _).mp hc with rfl | hc
    · exact ⟨a.isLt, hv⟩
    · exact heb c hc

theorem mem_ofImage (vs : List Byte) (k : Nat) (c : Host.Cell) (h : c ∈ Memory.ofImage k vs) :
    k ≤ c.1 ∧ c.1 < k + vs.length ∧ c.2 ≠ unlistedByte := by
  induction vs generalizing k with
  | nil => simp [Memory.ofImage] at h
  | cons v vs ih =>
    simp only [Memory.ofImage] at h
    split at h
    · have := ih (k + 1) h
      simp only [List.length_cons]
      exact ⟨by omega, by omega, this.2.2⟩
    · next hv =>
      rcases List.mem_cons.mp h with rfl | h
      · exact ⟨le_rfl, by simp, hv⟩
      · have := ih (k + 1) h
        simp only [List.length_cons]
        exact ⟨by omega, by omega, this.2.2⟩

theorem ofImage_pairwise (vs : List Byte) (k : Nat) :
    (Memory.ofImage k vs).Pairwise (fun c d => c.1 < d.1) := by
  induction vs generalizing k with
  | nil => exact .nil
  | cons v vs ih =>
    simp only [Memory.ofImage]
    split
    · exact ih (k + 1)
    · exact List.pairwise_cons.mpr ⟨fun d hd => (mem_ofImage vs (k + 1) d hd).1, ih (k + 1)⟩

/-- A loaded image is in canonical form. -/
theorem ofImage_wf (vs : List Byte) (h : vs.length ≤ 65536) : Memory.wf (Memory.ofImage 0 vs) :=
  ⟨ofImage_pairwise vs 0, fun c hc => by have := mem_ofImage vs 0 c hc; exact ⟨by omega, this.2.2⟩⟩

/-- The empty store, which reset leaves as RAM, is in canonical form. -/
theorem nil_wf : Memory.wf [] := ⟨.nil, fun _ h => nomatch h⟩

end Sys2Proof.Machine
end

