-- ==== Sys2Proof/Laws/State.lean ====
section
/-! SUPPORT. One lemma per field per update, all by rfl, and one lemma for each shared operation that says what it does. -/

namespace Sys2Proof.Machine

/-! ### setRaw -/

@[simp] theorem setRaw_regs (i : RegIdx) (v : Byte) (s : State) : (setRaw i v s).regs = s.regs.set i.toNat v i.isLt := rfl
@[simp] theorem setRaw_pc (i : RegIdx) (v : Byte) (s : State) : (setRaw i v s).pc = s.pc := rfl
@[simp] theorem setRaw_flags (i : RegIdx) (v : Byte) (s : State) : (setRaw i v s).flags = s.flags := rfl
@[simp] theorem setRaw_halted (i : RegIdx) (v : Byte) (s : State) : (setRaw i v s).halted = s.halted := rfl
@[simp] theorem setRaw_stage (i : RegIdx) (v : Byte) (s : State) : (setRaw i v s).stage = s.stage := rfl
@[simp] theorem setRaw_fetchCount (i : RegIdx) (v : Byte) (s : State) : (setRaw i v s).fetchCount = s.fetchCount := rfl
@[simp] theorem setRaw_microStep (i : RegIdx) (v : Byte) (s : State) : (setRaw i v s).microStep = s.microStep := rfl
@[simp] theorem setRaw_rom (i : RegIdx) (v : Byte) (s : State) : (setRaw i v s).rom = s.rom := rfl
@[simp] theorem setRaw_ram (i : RegIdx) (v : Byte) (s : State) : (setRaw i v s).ram = s.ram := rfl
@[simp] theorem setRaw_params (i : RegIdx) (v : Byte) (s : State) : (setRaw i v s).params = s.params := rfl
@[simp] theorem setRaw_unrecognizedRan (i : RegIdx) (v : Byte) (s : State) : (setRaw i v s).unrecognizedRan = s.unrecognizedRan := rfl
@[simp] theorem setRaw_sinkTrace (i : RegIdx) (v : Byte) (s : State) : (setRaw i v s).sinkTrace = s.sinkTrace := rfl

/-! ### ramWrite -/

@[simp] theorem ramWrite_regs (a : Addr) (v : Byte) (s : State) : (ramWrite a v s).regs = s.regs := rfl
@[simp] theorem ramWrite_pc (a : Addr) (v : Byte) (s : State) : (ramWrite a v s).pc = s.pc := rfl
@[simp] theorem ramWrite_flags (a : Addr) (v : Byte) (s : State) : (ramWrite a v s).flags = s.flags := rfl
@[simp] theorem ramWrite_halted (a : Addr) (v : Byte) (s : State) : (ramWrite a v s).halted = s.halted := rfl
@[simp] theorem ramWrite_stage (a : Addr) (v : Byte) (s : State) : (ramWrite a v s).stage = s.stage := rfl
@[simp] theorem ramWrite_fetchCount (a : Addr) (v : Byte) (s : State) : (ramWrite a v s).fetchCount = s.fetchCount := rfl
@[simp] theorem ramWrite_microStep (a : Addr) (v : Byte) (s : State) : (ramWrite a v s).microStep = s.microStep := rfl
@[simp] theorem ramWrite_rom (a : Addr) (v : Byte) (s : State) : (ramWrite a v s).rom = s.rom := rfl
@[simp] theorem ramWrite_ram (a : Addr) (v : Byte) (s : State) : (ramWrite a v s).ram = Memory.write s.ram a v := rfl
@[simp] theorem ramWrite_params (a : Addr) (v : Byte) (s : State) : (ramWrite a v s).params = s.params := rfl
@[simp] theorem ramWrite_unrecognizedRan (a : Addr) (v : Byte) (s : State) : (ramWrite a v s).unrecognizedRan = s.unrecognizedRan := rfl
@[simp] theorem ramWrite_sinkTrace (a : Addr) (v : Byte) (s : State) : (ramWrite a v s).sinkTrace = s.sinkTrace := rfl

/-! ### setPc -/

@[simp] theorem setPc_regs (t : Addr) (s : State) : (setPc t s).regs = s.regs := rfl
@[simp] theorem setPc_pc (t : Addr) (s : State) : (setPc t s).pc = t := rfl
@[simp] theorem setPc_flags (t : Addr) (s : State) : (setPc t s).flags = s.flags := rfl
@[simp] theorem setPc_halted (t : Addr) (s : State) : (setPc t s).halted = s.halted := rfl
@[simp] theorem setPc_stage (t : Addr) (s : State) : (setPc t s).stage = s.stage := rfl
@[simp] theorem setPc_fetchCount (t : Addr) (s : State) : (setPc t s).fetchCount = s.fetchCount := rfl
@[simp] theorem setPc_microStep (t : Addr) (s : State) : (setPc t s).microStep = s.microStep := rfl
@[simp] theorem setPc_rom (t : Addr) (s : State) : (setPc t s).rom = s.rom := rfl
@[simp] theorem setPc_ram (t : Addr) (s : State) : (setPc t s).ram = s.ram := rfl
@[simp] theorem setPc_params (t : Addr) (s : State) : (setPc t s).params = s.params := rfl
@[simp] theorem setPc_unrecognizedRan (t : Addr) (s : State) : (setPc t s).unrecognizedRan = s.unrecognizedRan := rfl
@[simp] theorem setPc_sinkTrace (t : Addr) (s : State) : (setPc t s).sinkTrace = s.sinkTrace := rfl

/-! ### setPcHigh -/

@[simp] theorem setPcHigh_regs (v : Byte) (s : State) : (setPcHigh v s).regs = s.regs := rfl
@[simp] theorem setPcHigh_pc (v : Byte) (s : State) : (setPcHigh v s).pc = catBytes v (lowByte s.pc) := rfl
@[simp] theorem setPcHigh_flags (v : Byte) (s : State) : (setPcHigh v s).flags = s.flags := rfl
@[simp] theorem setPcHigh_halted (v : Byte) (s : State) : (setPcHigh v s).halted = s.halted := rfl
@[simp] theorem setPcHigh_stage (v : Byte) (s : State) : (setPcHigh v s).stage = s.stage := rfl
@[simp] theorem setPcHigh_fetchCount (v : Byte) (s : State) : (setPcHigh v s).fetchCount = s.fetchCount := rfl
@[simp] theorem setPcHigh_microStep (v : Byte) (s : State) : (setPcHigh v s).microStep = s.microStep := rfl
@[simp] theorem setPcHigh_rom (v : Byte) (s : State) : (setPcHigh v s).rom = s.rom := rfl
@[simp] theorem setPcHigh_ram (v : Byte) (s : State) : (setPcHigh v s).ram = s.ram := rfl
@[simp] theorem setPcHigh_params (v : Byte) (s : State) : (setPcHigh v s).params = s.params := rfl
@[simp] theorem setPcHigh_unrecognizedRan (v : Byte) (s : State) : (setPcHigh v s).unrecognizedRan = s.unrecognizedRan := rfl
@[simp] theorem setPcHigh_sinkTrace (v : Byte) (s : State) : (setPcHigh v s).sinkTrace = s.sinkTrace := rfl

/-! ### setPcLow -/

@[simp] theorem setPcLow_regs (v : Byte) (s : State) : (setPcLow v s).regs = s.regs := rfl
@[simp] theorem setPcLow_pc (v : Byte) (s : State) : (setPcLow v s).pc = catBytes (highByte s.pc) v := rfl
@[simp] theorem setPcLow_flags (v : Byte) (s : State) : (setPcLow v s).flags = s.flags := rfl
@[simp] theorem setPcLow_halted (v : Byte) (s : State) : (setPcLow v s).halted = s.halted := rfl
@[simp] theorem setPcLow_stage (v : Byte) (s : State) : (setPcLow v s).stage = s.stage := rfl
@[simp] theorem setPcLow_fetchCount (v : Byte) (s : State) : (setPcLow v s).fetchCount = s.fetchCount := rfl
@[simp] theorem setPcLow_microStep (v : Byte) (s : State) : (setPcLow v s).microStep = s.microStep := rfl
@[simp] theorem setPcLow_rom (v : Byte) (s : State) : (setPcLow v s).rom = s.rom := rfl
@[simp] theorem setPcLow_ram (v : Byte) (s : State) : (setPcLow v s).ram = s.ram := rfl
@[simp] theorem setPcLow_params (v : Byte) (s : State) : (setPcLow v s).params = s.params := rfl
@[simp] theorem setPcLow_unrecognizedRan (v : Byte) (s : State) : (setPcLow v s).unrecognizedRan = s.unrecognizedRan := rfl
@[simp] theorem setPcLow_sinkTrace (v : Byte) (s : State) : (setPcLow v s).sinkTrace = s.sinkTrace := rfl

/-! ### finish -/

@[simp] theorem finish_regs (s : State) : (finish s).regs = s.regs := rfl
@[simp] theorem finish_pc (s : State) : (finish s).pc = s.pc := rfl
@[simp] theorem finish_flags (s : State) : (finish s).flags = s.flags := rfl
@[simp] theorem finish_halted (s : State) : (finish s).halted = s.halted := rfl
@[simp] theorem finish_stage (s : State) : (finish s).stage = ⟨0x00, 0x00, 0x00⟩ := rfl
@[simp] theorem finish_fetchCount (s : State) : (finish s).fetchCount = 0 := rfl
@[simp] theorem finish_microStep (s : State) : (finish s).microStep = 0 := rfl
@[simp] theorem finish_rom (s : State) : (finish s).rom = s.rom := rfl
@[simp] theorem finish_ram (s : State) : (finish s).ram = s.ram := rfl
@[simp] theorem finish_params (s : State) : (finish s).params = s.params := rfl
@[simp] theorem finish_unrecognizedRan (s : State) : (finish s).unrecognizedRan = s.unrecognizedRan := rfl
@[simp] theorem finish_sinkTrace (s : State) : (finish s).sinkTrace = s.sinkTrace := rfl

/-! ### advance -/

@[simp] theorem advance_regs (s : State) : (advance s).regs = s.regs := rfl
@[simp] theorem advance_pc (s : State) : (advance s).pc = s.pc := rfl
@[simp] theorem advance_flags (s : State) : (advance s).flags = s.flags := rfl
@[simp] theorem advance_halted (s : State) : (advance s).halted = s.halted := rfl
@[simp] theorem advance_stage (s : State) : (advance s).stage = s.stage := rfl
@[simp] theorem advance_fetchCount (s : State) : (advance s).fetchCount = s.fetchCount := rfl
@[simp] theorem advance_microStep (s : State) : (advance s).microStep = s.microStep + 1 := rfl
@[simp] theorem advance_rom (s : State) : (advance s).rom = s.rom := rfl
@[simp] theorem advance_ram (s : State) : (advance s).ram = s.ram := rfl
@[simp] theorem advance_params (s : State) : (advance s).params = s.params := rfl
@[simp] theorem advance_unrecognizedRan (s : State) : (advance s).unrecognizedRan = s.unrecognizedRan := rfl
@[simp] theorem advance_sinkTrace (s : State) : (advance s).sinkTrace = s.sinkTrace := rfl

/-! ### updateFlags -/

@[simp] theorem updateFlags_regs (p r : Byte) (k : Bool) (s : State) : (updateFlags p r k s).regs = s.regs := rfl
@[simp] theorem updateFlags_pc (p r : Byte) (k : Bool) (s : State) : (updateFlags p r k s).pc = s.pc := rfl
@[simp] theorem updateFlags_flags (p r : Byte) (k : Bool) (s : State) : (updateFlags p r k s).flags = computeFlags p r k := rfl
@[simp] theorem updateFlags_halted (p r : Byte) (k : Bool) (s : State) : (updateFlags p r k s).halted = s.halted := rfl
@[simp] theorem updateFlags_stage (p r : Byte) (k : Bool) (s : State) : (updateFlags p r k s).stage = s.stage := rfl
@[simp] theorem updateFlags_fetchCount (p r : Byte) (k : Bool) (s : State) : (updateFlags p r k s).fetchCount = s.fetchCount := rfl
@[simp] theorem updateFlags_microStep (p r : Byte) (k : Bool) (s : State) : (updateFlags p r k s).microStep = s.microStep := rfl
@[simp] theorem updateFlags_rom (p r : Byte) (k : Bool) (s : State) : (updateFlags p r k s).rom = s.rom := rfl
@[simp] theorem updateFlags_ram (p r : Byte) (k : Bool) (s : State) : (updateFlags p r k s).ram = s.ram := rfl
@[simp] theorem updateFlags_params (p r : Byte) (k : Bool) (s : State) : (updateFlags p r k s).params = s.params := rfl
@[simp] theorem updateFlags_unrecognizedRan (p r : Byte) (k : Bool) (s : State) : (updateFlags p r k s).unrecognizedRan = s.unrecognizedRan := rfl
@[simp] theorem updateFlags_sinkTrace (p r : Byte) (k : Bool) (s : State) : (updateFlags p r k s).sinkTrace = s.sinkTrace := rfl

/-! ### perform: one write changes one byte of a register, of RAM or of pc -/

@[simp] theorem perform_flags (w : Option Write) (s : State) : (perform w s).flags = s.flags := by
  rcases w with _ | ⟨_ | _ | _ | _, v⟩ <;> rfl
@[simp] theorem perform_halted (w : Option Write) (s : State) : (perform w s).halted = s.halted := by
  rcases w with _ | ⟨_ | _ | _ | _, v⟩ <;> rfl
@[simp] theorem perform_stage (w : Option Write) (s : State) : (perform w s).stage = s.stage := by
  rcases w with _ | ⟨_ | _ | _ | _, v⟩ <;> rfl
@[simp] theorem perform_fetchCount (w : Option Write) (s : State) : (perform w s).fetchCount = s.fetchCount := by
  rcases w with _ | ⟨_ | _ | _ | _, v⟩ <;> rfl
@[simp] theorem perform_microStep (w : Option Write) (s : State) : (perform w s).microStep = s.microStep := by
  rcases w with _ | ⟨_ | _ | _ | _, v⟩ <;> rfl
@[simp] theorem perform_rom (w : Option Write) (s : State) : (perform w s).rom = s.rom := by
  rcases w with _ | ⟨_ | _ | _ | _, v⟩ <;> rfl
@[simp] theorem perform_params (w : Option Write) (s : State) : (perform w s).params = s.params := by
  rcases w with _ | ⟨_ | _ | _ | _, v⟩ <;> rfl
@[simp] theorem perform_unrecognizedRan (w : Option Write) (s : State) : (perform w s).unrecognizedRan = s.unrecognizedRan := by
  rcases w with _ | ⟨_ | _ | _ | _, v⟩ <;> rfl
@[simp] theorem perform_sinkTrace (w : Option Write) (s : State) : (perform w s).sinkTrace = s.sinkTrace := by
  rcases w with _ | ⟨_ | _ | _ | _, v⟩ <;> rfl
@[simp] theorem perform_none (s : State) : perform none s = s := rfl
@[simp] theorem perform_reg (i : RegIdx) (v : Byte) (s : State) : perform (some ⟨.reg i, v⟩) s = setRaw i v s := rfl
@[simp] theorem perform_ram (a : Addr) (v : Byte) (s : State) : perform (some ⟨.ram a, v⟩) s = ramWrite a v s := rfl
@[simp] theorem perform_pcHigh (v : Byte) (s : State) : perform (some ⟨.pcHigh, v⟩) s = setPcHigh v s := rfl
@[simp] theorem perform_pcLow (v : Byte) (s : State) : perform (some ⟨.pcLow, v⟩) s = setPcLow v s := rfl

/-! ### writing: the write, what else the row does, the sink -/

@[simp] theorem writing_regs (m : Mnemonic) (w : State → Option Write) (also : State → State → State) (s : State) :
    (writing m w also s).regs = (also s (perform (w s) s)).regs := rfl
@[simp] theorem writing_pc (m : Mnemonic) (w : State → Option Write) (also : State → State → State) (s : State) :
    (writing m w also s).pc = (also s (perform (w s) s)).pc := rfl
@[simp] theorem writing_flags (m : Mnemonic) (w : State → Option Write) (also : State → State → State) (s : State) :
    (writing m w also s).flags = (also s (perform (w s) s)).flags := rfl
@[simp] theorem writing_halted (m : Mnemonic) (w : State → Option Write) (also : State → State → State) (s : State) :
    (writing m w also s).halted = (also s (perform (w s) s)).halted := rfl
@[simp] theorem writing_stage (m : Mnemonic) (w : State → Option Write) (also : State → State → State) (s : State) :
    (writing m w also s).stage = (also s (perform (w s) s)).stage := rfl
@[simp] theorem writing_fetchCount (m : Mnemonic) (w : State → Option Write) (also : State → State → State) (s : State) :
    (writing m w also s).fetchCount = (also s (perform (w s) s)).fetchCount := rfl
@[simp] theorem writing_microStep (m : Mnemonic) (w : State → Option Write) (also : State → State → State) (s : State) :
    (writing m w also s).microStep = (also s (perform (w s) s)).microStep := rfl
@[simp] theorem writing_rom (m : Mnemonic) (w : State → Option Write) (also : State → State → State) (s : State) :
    (writing m w also s).rom = (also s (perform (w s) s)).rom := rfl
@[simp] theorem writing_ram (m : Mnemonic) (w : State → Option Write) (also : State → State → State) (s : State) :
    (writing m w also s).ram = (also s (perform (w s) s)).ram := rfl
@[simp] theorem writing_params (m : Mnemonic) (w : State → Option Write) (also : State → State → State) (s : State) :
    (writing m w also s).params = (also s (perform (w s) s)).params := rfl
@[simp] theorem writing_unrecognizedRan (m : Mnemonic) (w : State → Option Write) (also : State → State → State) (s : State) :
    (writing m w also s).unrecognizedRan = (also s (perform (w s) s)).unrecognizedRan := rfl
@[simp] theorem writing_sinkTrace (m : Mnemonic) (w : State → Option Write) (also : State → State → State) (s : State) :
    (writing m w also s).sinkTrace = s.sinkTrace ++ sinkCall m (w s) s := rfl
@[simp] theorem only_eq (s t : State) : only s t = t := rfl

/-! ### writeReg, field by field -/

@[simp] theorem writeReg_pc (i : RegIdx) (v : Byte) (s : State) : (writeReg i v s).pc = s.pc := by
  unfold writeReg regWrite; split <;> rfl
@[simp] theorem writeReg_flags (i : RegIdx) (v : Byte) (s : State) : (writeReg i v s).flags = s.flags := by
  simp [writeReg]
@[simp] theorem writeReg_halted (i : RegIdx) (v : Byte) (s : State) : (writeReg i v s).halted = s.halted := by
  simp [writeReg]
@[simp] theorem writeReg_stage (i : RegIdx) (v : Byte) (s : State) : (writeReg i v s).stage = s.stage := by
  simp [writeReg]
@[simp] theorem writeReg_fetchCount (i : RegIdx) (v : Byte) (s : State) : (writeReg i v s).fetchCount = s.fetchCount := by
  simp [writeReg]
@[simp] theorem writeReg_microStep (i : RegIdx) (v : Byte) (s : State) : (writeReg i v s).microStep = s.microStep := by
  simp [writeReg]
@[simp] theorem writeReg_rom (i : RegIdx) (v : Byte) (s : State) : (writeReg i v s).rom = s.rom := by
  simp [writeReg]
@[simp] theorem writeReg_ram (i : RegIdx) (v : Byte) (s : State) : (writeReg i v s).ram = s.ram := by
  unfold writeReg regWrite; split <;> rfl
@[simp] theorem writeReg_params (i : RegIdx) (v : Byte) (s : State) : (writeReg i v s).params = s.params := by
  simp [writeReg]
@[simp] theorem writeReg_unrecognizedRan (i : RegIdx) (v : Byte) (s : State) : (writeReg i v s).unrecognizedRan = s.unrecognizedRan := by
  simp [writeReg]
@[simp] theorem writeReg_sinkTrace (i : RegIdx) (v : Byte) (s : State) : (writeReg i v s).sinkTrace = s.sinkTrace := by
  simp [writeReg]

/-! ### Registers -/

theorem rawReg_congr {s t : State} (h : t.regs = s.regs) (j : RegIdx) : rawReg t j = rawReg s j := by
  simp [rawReg, h]

/-- Reading a slot after a raw write. -/
theorem rawReg_setRaw (i j : RegIdx) (v : Byte) (s : State) :
    rawReg (setRaw i v s) j = if j = i then v else rawReg s j := by
  simp only [rawReg, setRaw, Vector.getElem_set]
  by_cases h : j = i
  · simp [h]
  · have : i.toNat ≠ j.toNat := fun e => h (BitVec.eq_of_toNat_eq e.symm)
    simp [h, this]

/-- Reading a slot after `WriteReg` (R29). -/
theorem rawReg_writeReg (i j : RegIdx) (v : Byte) (s : State) :
    rawReg (writeReg i v s) j = if j = i ∧ i ∈ s.params.writable then v else rawReg s j := by
  unfold writeReg regWrite
  split
  · next h => simp [rawReg_setRaw, h]
  · next h => simp [h]

@[simp] theorem rawReg_ramWrite (a : Addr) (v : Byte) (s : State) (j : RegIdx) :
    rawReg (ramWrite a v s) j = rawReg s j := rfl
/-- Reading a slot after a row: the sink changes no register. -/
@[simp] theorem rawReg_writing (m : Mnemonic) (w : State → Option Write) (also : State → State → State) (s : State)
    (j : RegIdx) : rawReg (writing m w also s) j = rawReg (also s (perform (w s) s)) j := rfl
@[simp] theorem rawReg_setPc (t : Addr) (s : State) (j : RegIdx) : rawReg (setPc t s) j = rawReg s j := rfl
@[simp] theorem rawReg_setPcHigh (v : Byte) (s : State) (j : RegIdx) : rawReg (setPcHigh v s) j = rawReg s j := rfl
@[simp] theorem rawReg_setPcLow (v : Byte) (s : State) (j : RegIdx) : rawReg (setPcLow v s) j = rawReg s j := rfl
@[simp] theorem rawReg_finish (s : State) (j : RegIdx) : rawReg (finish s) j = rawReg s j := rfl
@[simp] theorem rawReg_advance (s : State) (j : RegIdx) : rawReg (advance s) j = rawReg s j := rfl
@[simp] theorem rawReg_updateFlags (p r : Byte) (k : Bool) (s : State) (j : RegIdx) :
    rawReg (updateFlags p r k s) j = rawReg s j := rfl
/-- A readable index reads its slot (R28). -/
theorem readReg_of_readable {s : State} {i : RegIdx} (h : i ∈ s.params.readable) : readReg s i = rawReg s i := by
  simp [readReg, h]

/-- Any other index reads `RESERVED_READ_VALUE` (R28). -/
theorem readReg_of_not_readable {s : State} {i : RegIdx} (h : i ∉ s.params.readable) :
    readReg s i = s.params.reservedReadValue := by
  simp [readReg, h]

/-! ### Memories -/

/-- Reading RAM after `RamWrite` (R57, R66). -/
theorem ramRead_ramWrite (a b : Addr) (v : Byte) (s : State) :
    ramRead (ramWrite a v s) b = if b = a then v else ramRead s b := read_write s.ram a b v

/-- Reading RAM after a row: the sink changes no byte. -/
@[simp] theorem ramRead_writing (m : Mnemonic) (w : State → Option Write) (also : State → State → State) (s : State)
    (b : Addr) : ramRead (writing m w also s) b = ramRead (also s (perform (w s) s)) b := rfl

theorem ramRead_congr {s t : State} (h : t.ram = s.ram) (a : Addr) : ramRead t a = ramRead s a := by
  simp [ramRead, h]

theorem romRead_congr {s t : State} (h : t.rom = s.rom) (a : Addr) : romRead t a = romRead s a := by
  simp [romRead, h]

/-! ### The sink's trigger (R261) -/

@[simp] theorem sinkCall_nothing (m : Mnemonic) (s : State) : sinkCall m none s = [] := rfl
theorem sinkCall_byte (m : Mnemonic) (w : Write) (s : State) :
    sinkCall m (some w) s = if sinkFires s.params.sinkTrigger m w s then [w.byte] else [] := rfl
@[simp] theorem sinkFires_none (m : Mnemonic) (w : Write) (s : State) : sinkFires .none m w s = false := rfl
@[simp] theorem sinkFires_writeWhen (c : SinkCond) (m : Mnemonic) (w : Write) (s : State) :
    sinkFires (.writeWhen c) m w s = sinkHolds c m w s := rfl
theorem sinkHolds_within (x : SinkSource) (l h : Nat) (m : Mnemonic) (w : Write) (s : State) :
    sinkHolds (.within x l h) m w s = decide (l ≤ sinkValue x w s ∧ sinkValue x w s ≤ h) := rfl
theorem sinkHolds_ramWriteIn (f l : Addr) (m : Mnemonic) (w : Write) (s : State) :
    sinkHolds (.ramWriteIn f l) m w s = w.dest.inRam f l := rfl
@[simp] theorem sinkHolds_registerWrite (i : RegIdx) (m : Mnemonic) (w : Write) (s : State) :
    sinkHolds (.registerWrite i) m w s = decide (w.dest = .reg i) := rfl
@[simp] theorem sinkHolds_instruction (p m : Mnemonic) (w : Write) (s : State) :
    sinkHolds (.instruction p) m w s = decide (m = p) := rfl
@[simp] theorem sinkHolds_not (c : SinkCond) (m : Mnemonic) (w : Write) (s : State) :
    sinkHolds (.not c) m w s = !sinkHolds c m w s := rfl
@[simp] theorem sinkHolds_and (c d : SinkCond) (m : Mnemonic) (w : Write) (s : State) :
    sinkHolds (.and c d) m w s = (sinkHolds c m w s && sinkHolds d m w s) := rfl
@[simp] theorem sinkHolds_or (c d : SinkCond) (m : Mnemonic) (w : Write) (s : State) :
    sinkHolds (.or c d) m w s = (sinkHolds c m w s || sinkHolds d m w s) := rfl

/-- Under the trigger none no micro-step hands over a byte. -/
theorem sinkCall_of_none {s : State} (h : s.params.sinkTrigger = .none) (m : Mnemonic) (w : Option Write) :
    sinkCall m w s = [] := by
  cases w with
  | none => rfl
  | some w => simp [sinkCall_byte, h]

/-- No condition looks at the sink's trace or at the mark (R261 "never read back by the engine"). -/
theorem sinkHolds_records (c : SinkCond) (m : Mnemonic) (w : Write) (s : State) (trace : List Byte) (mark : Bool) :
    sinkHolds c m w { s with sinkTrace := trace, unrecognizedRan := mark } = sinkHolds c m w s := by
  induction c with
  | within x => cases x <;> rfl
  | ramWriteIn => rfl
  | registerWrite => rfl
  | instruction => rfl
  | not c ih => simp only [sinkHolds_not, ih]
  | and c d hc hd => simp only [sinkHolds_and, hc, hd]
  | or c d hc hd => simp only [sinkHolds_or, hc, hd]

/-- No condition looks at the parameters (FLAG_BITPOS among them). -/
theorem sinkHolds_params (c : SinkCond) (m : Mnemonic) (w : Write) (s : State) (p : Params) :
    sinkHolds c m w { s with params := p } = sinkHolds c m w s := by
  induction c with
  | within x => cases x <;> rfl
  | ramWriteIn => rfl
  | registerWrite => rfl
  | instruction => rfl
  | not c ih => simp only [sinkHolds_not, ih]
  | and c d hc hd => simp only [sinkHolds_and, hc, hd]
  | or c d hc hd => simp only [sinkHolds_or, hc, hd]

/-! ### Bytes and nibbles -/

@[simp] theorem hiNibble_pack (h l : Nibble) : hiNibble (packNibbles h l) = h := by
  revert h l; decide
@[simp] theorem loNibble_pack (h l : Nibble) : loNibble (packNibbles h l) = l := by
  revert h l; decide
@[simp] theorem pack_hi_lo (v : Byte) : packNibbles (hiNibble v) (loNibble v) = v := by
  revert v; decide
/-- `hi ++ lo` is `hi * 256 + lo` (R10). -/
theorem toNat_catBytes (h l : Byte) : (catBytes h l).toNat = h.toNat * 256 + l.toNat := by
  have e : (catBytes h l).toNat = h.toNat <<< 8 ||| l.toNat := BitVec.toNat_append h l
  rw [e, ← Nat.shiftLeft_add_eq_or_of_lt l.isLt, Nat.shiftLeft_eq]
theorem toNat_highByte (v : Addr) : (highByte v).toNat = v.toNat / 256 := by
  have h := v.isLt
  simp only [highByte, BitVec.extractLsb'_toNat, Nat.shiftRight_eq_div_pow]
  omega
theorem toNat_lowByte (v : Addr) : (lowByte v).toNat = v.toNat % 256 := by
  simp [lowByte, BitVec.extractLsb'_toNat]
@[simp] theorem highByte_cat (h l : Byte) : highByte (catBytes h l) = h := by
  apply BitVec.eq_of_toNat_eq
  have := h.isLt; have := l.isLt
  rw [toNat_highByte, toNat_catBytes]; omega
@[simp] theorem lowByte_cat (h l : Byte) : lowByte (catBytes h l) = l := by
  apply BitVec.eq_of_toNat_eq
  have := h.isLt; have := l.isLt
  rw [toNat_lowByte, toNat_catBytes]; omega
@[simp] theorem cat_high_low (v : Addr) : catBytes (highByte v) (lowByte v) = v := by
  apply BitVec.eq_of_toNat_eq
  rw [toNat_catBytes, toNat_highByte, toNat_lowByte]; omega
theorem catBytes_inj {h h' l l' : Byte} (e : catBytes h l = catBytes h' l') : h = h' ∧ l = l' :=
  ⟨by simpa using congrArg highByte e, by simpa using congrArg lowByte e⟩

/-! ### Flags -/

/-- R150's four formulas. -/
theorem computeFlags_spec (prev res : Byte) (k : Bool) :
    ((computeFlags prev res k).z = true ↔ res = 0x00) ∧
      ((computeFlags prev res k).n = true ↔ 0x7F < res.toNat) ∧
      ((computeFlags prev res k).o = true ↔ 0x7F < res.toNat ∧ prev.toNat ≤ 0x7F) ∧
      ((computeFlags prev res k).c = true ↔ k = true ∧ res.toNat < prev.toNat) := by
  simp [computeFlags]

/-! ### Micro-step tables -/

/-- All that `runRows` can do: fault past the table, or run its row and complete or continue. -/
theorem runRows_cases (rows : List (State → State)) (s : State) :
    (rows.length ≤ s.microStep ∧ runRows rows s = .fault .microStepOutOfTable) ∨
    (∃ row, rows[s.microStep]? = some row ∧
      ((s.microStep + 1 = rows.length ∧ runRows rows s = .next (finish (row s))) ∨
        (s.microStep + 1 < rows.length ∧ runRows rows s = .next (advance (row s))))) := by
  unfold runRows
  rcases h : rows[s.microStep]? with _ | row
  · exact .inl ⟨by simpa using h, rfl⟩
  · refine .inr ⟨row, rfl, ?_⟩
    have hlt : s.microStep < rows.length := by
      by_contra hn; simp [List.getElem?_eq_none (not_lt.mp hn)] at h
    by_cases he : s.microStep + 1 = rows.length
    · exact .inl ⟨he, by simp [he]⟩
    · exact .inr ⟨by omega, by simp [he]⟩

/-- A row before the last: the row, then `continue`. -/
theorem runRows_continue {rows : List (State → State)} {row : State → State} {s : State} {k : Nat}
    (hk : s.microStep = k) (hr : rows[k]? = some row) (hl : k + 1 < rows.length) :
    runRows rows s = .next (advance (row s)) := by
  subst hk
  simp only [runRows, hr]
  rw [if_neg (by omega)]

/-- The last row: the row, then `done`. -/
theorem runRows_done {rows : List (State → State)} {row : State → State} {s : State} {k : Nat}
    (hk : s.microStep = k) (hr : rows[k]? = some row) (hl : k + 1 = rows.length) :
    runRows rows s = .next (finish (row s)) := by
  subst hk
  simp only [runRows, hr]
  rw [if_pos hl]

/-- What a next state of `runRows` is. -/
theorem runRows_next {rows : List (State → State)} {s t : State} (h : runRows rows s = .next t) :
    ∃ row, rows[s.microStep]? = some row ∧ s.microStep < rows.length ∧
      t = (if s.microStep + 1 = rows.length then finish (row s) else advance (row s)) := by
  rcases runRows_cases rows s with ⟨_, h'⟩ | ⟨row, hr, ⟨he, h'⟩ | ⟨hl, h'⟩⟩
  · rw [h'] at h; cases h
  · rw [h'] at h; cases h; exact ⟨row, hr, by omega, by simp [he]⟩
  · rw [h'] at h; cases h; exact ⟨row, hr, by omega, by rw [if_neg (by omega)]⟩

/-- A table of one row, at micro-step 0: the row, then completion. -/
theorem runRows_single (row : State → State) (s : State) (h : s.microStep = 0) :
    runRows [row] s = .next (finish (row s)) := by
  simp [runRows, h]

/-- A table of one row answers a next state only at micro-step 0. -/
theorem runRows_single_next {row : State → State} {s t : State} (h : runRows [row] s = .next t) :
    s.microStep = 0 ∧ t = finish (row s) := by
  obtain ⟨r, hr, hl, rfl⟩ := runRows_next h
  have h0 : s.microStep = 0 := by simpa using hl
  simp only [h0] at hr
  simp at hr
  subst hr
  exact ⟨h0, by simp [h0]⟩

end Sys2Proof.Machine
end

