-- ==== Sys2Proof/Laws/Exec.lean ====
section
/-! SUPPORT. What each shared operation of the meanings does, and every instruction but STOP as the run of one table of rows. -/

namespace Sys2Proof.Machine

/-! ## Shared operations -/

/-- All that `aluRow` does: one `WriteReg`, the four flags, the sink, nothing else (R151 to R156). -/
theorem aluRow_eq (m : Mnemonic) (d : RegIdx) (k : Bool) (res : State → Byte) (s : State) :
    aluRow m d k res s =
      { s with
        regs := (writeReg d (res s) s).regs
        flags := computeFlags (readReg s d) (res s) k
        sinkTrace := s.sinkTrace ++ sinkCall m (regWrite d (res s) s) s } := by
  by_cases hd : d ∈ s.params.writable <;> simp [aluRow, writing, updateFlags, writeReg, regWrite, hd, setRaw]

/-- All that `nandRow` does (R158). -/
theorem nandRow_eq (d a b : RegIdx) (s : State) :
    nandRow d a b s =
      { s with
        regs := (writeReg d (~~~(readReg s a &&& readReg s b)) s).regs
        flags := if s.params.nandSetsFlags then computeFlags (readReg s d) (~~~(readReg s a &&& readReg s b)) false
          else s.flags
        sinkTrace := s.sinkTrace ++ sinkCall .nand (regWrite d (~~~(readReg s a &&& readReg s b)) s) s } := by
  by_cases hf : s.params.nandSetsFlags = true <;> by_cases hd : d ∈ s.params.writable <;>
    simp [nandRow, writing, updateFlags, writeReg, regWrite, hf, hd, setRaw]

/-- All that `regRow` does: one `WriteReg`, and the sink. -/
theorem regRow_eq (m : Mnemonic) (d : RegIdx) (v : State → Byte) (s : State) :
    regRow m d v s =
      { s with
        regs := (writeReg d (v s) s).regs
        sinkTrace := s.sinkTrace ++ sinkCall m (regWrite d (v s) s) s } := by
  by_cases hd : d ∈ s.params.writable <;> simp [regRow, writing, writeReg, regWrite, hd, setRaw]

/-- All that `rawRow` does: one raw write, and the sink. -/
theorem rawRow_eq (m : Mnemonic) (i : RegIdx) (v : State → Byte) (s : State) :
    rawRow m i v s = { setRaw i (v s) s with sinkTrace := s.sinkTrace ++ sinkCall m (some ⟨.reg i, v s⟩) s } := rfl

/-- All that `ramRow` does: one RamWrite, and the sink. -/
theorem ramRow_eq (m : Mnemonic) (a : State → Addr) (v : State → Byte) (s : State) :
    ramRow m a v s =
      { ramWrite (a s) (v s) s with sinkTrace := s.sinkTrace ++ sinkCall m (some ⟨.ram (a s), v s⟩) s } := rfl

/-- All that `jumpIf` does: pc, and nothing else. -/
theorem jumpIf_eq (c : State → Bool) (t : Addr) (s : State) :
    jumpIf c t s = { s with pc := if c s then t else s.pc } := by
  unfold jumpIf setPc
  split <;> rfl

/-- `WriteReg` changes the register file only (R29). -/
theorem writeReg_eq (i : RegIdx) (v : Byte) (s : State) :
    writeReg i v s = { s with regs := (writeReg i v s).regs } := by
  unfold writeReg regWrite
  split <;> rfl

/-- All that a fetch step does to a store or a register: nothing (R124). -/
theorem fetchByte_eq (s : State) :
    fetchByte s = { s with
      stage := Stage.put s.stage s.fetchCount.val (romRead s s.pc)
      fetchCount := s.fetchCount + 1
      pc := s.pc + 1 } := rfl

/-! ## Every instruction but STOP is one table of rows -/

/-- The micro-step table of an instruction, as its meaning gives it to `runRows`. STOP has no table (R127). -/
def rowsOf (i : Instr) (s : State) : List (State → State) :=
  match i with
  | .stop => []
  | .ret => retRows
  | .pcall => linkageRows .pcall pcallTarget
  | .push r => pushRows r
  | .sto r => [ramRow .sto eaBankAddr fun s => readReg s r]
  | .cmp a b => [fun s => updateFlags (readReg s a) (readReg s a - readReg s b) false s]
  | .pop d => popRows d
  | .ldrom d => [regRow .ldrom d fun s => romRead s (eaBankAddr s)]
  | .add d a b => [aluRow .add d true fun s => readReg s a + readReg s b]
  | .adc d a b => [aluRow .adc d true fun s => readReg s a + readReg s b + carryIn s]
  | .stidx a x y => [ramRow .stidx (eaIndexed x y) (stidxValue a)]
  | .sub d a b => [aluRow .sub d s.params.subIsAdditive fun s => readReg s a - readReg s b]
  | .sbc d a b => [aluRow .sbc d s.params.subIsAdditive fun s => readReg s a - readReg s b - carryIn s]
  | .ldidx d x y => [regRow .ldidx d fun s => ramRead s (eaIndexed x y s)]
  | .imm d v => [regRow .imm d fun _ => v]
  | .nand d a b => [nandRow d a b]
  | .iadd d a v => [aluRow .iadd d true fun s => readReg s a + v]
  | .isub d a v => [aluRow .isub d s.params.subIsAdditive fun s => readReg s a - v]
  | .jmp t => [setPc t]
  | .call t => linkageRows .call fun _ => t
  | .jz t => [jumpIf (fun s => s.flags.z) t]
  | .jn t => [jumpIf (fun s => s.flags.n) t]
  | .jc t => [jumpIf (fun s => s.flags.c) t]
  | .jo t => [jumpIf (fun s => s.flags.o) t]
  | .ldram d => [regRow .ldram d fun s => ramRead s (eaBankAddr s)]

/-- exec of every instruction but STOP runs its table. -/
theorem exec_eq_runRows (i : Instr) (s : State) (h : i ≠ .stop) : exec i s = runRows (rowsOf i s) s := by
  cases i with
  | stop => exact absurd rfl h
  | _ => rfl

/-- A table has as many rows as R132 counts micro-steps. -/
theorem rowsOf_length (i : Instr) (s : State) (h : i ≠ .stop) : (rowsOf i s).length = microSteps i := by
  cases i with
  | stop => exact absurd rfl h
  | _ => rfl

/-- What every row writes: the registers and RAM are those after the write of its one byte, and the sink gets what that
write hands it (R261). What else a row changes is pc, the flags and the sequencer. -/
theorem row_writes {i : Instr} {s : State} {row : State → State} (hr : (rowsOf i s)[s.microStep]? = some row) :
    (row s).regs = (perform (writtenByte i s) s).regs ∧ (row s).ram = (perform (writtenByte i s) s).ram ∧
      (row s).sinkTrace = s.sinkTrace ++ sinkCall (mnemonic i) (writtenByte i s) s := by
  have hl := (List.getElem?_eq_some_iff.1 hr).1
  generalize hk : s.microStep = k at hr hl
  cases i
  case stop => cases hr
  case ret | pcall | call | push | pop =>
    simp only [rowsOf, retRows, linkageRows, pushRows, popRows, List.length_cons, List.length_nil] at hl
    interval_cases k <;> cases hr <;> simp only [writtenByte, linkageByte, hk] <;> exact ⟨rfl, rfl, rfl⟩
  all_goals
    simp only [rowsOf, List.length_cons, List.length_nil] at hl
    interval_cases k
    cases hr
  case nand d a b =>
    rw [nandRow_eq]
    exact ⟨rfl, (writeReg_ram d (~~~(readReg s a &&& readReg s b)) s).symm, rfl⟩
  case cmp | jmp | jz | jn | jc | jo => simp [writtenByte, jumpIf_eq]
  all_goals exact ⟨rfl, rfl, rfl⟩

/-- What a step can do: nothing when halted, one fetched byte, or one micro-step of what is staged (R130). -/
theorem step_cases (s : State) :
    (s.halted = true ∧ step s = .next s) ∨
    (s.halted = false ∧ fetchPending s = true ∧ step s = .next (fetchByte s)) ∨
    (s.halted = false ∧ fetchPending s = false ∧
      ((∃ i, decodeStaged s = .ok i ∧ step s = exec i s) ∨
        (∃ e, decodeStaged s = .error e ∧ step s = execUnrecognized s))) := by
  unfold step
  rcases hh : s.halted with _ | _
  · rcases hf : fetchPending s with _ | _
    · rcases hd : decodeStaged s with e | i
      · exact .inr (.inr ⟨rfl, rfl, .inr ⟨e, rfl, by simp⟩⟩)
      · exact .inr (.inr ⟨rfl, rfl, .inl ⟨i, rfl, by simp⟩⟩)
    · exact .inr (.inl ⟨rfl, rfl, by simp⟩)
  · exact .inl ⟨rfl, by simp⟩

/-- What a next state of exec is: STOP's, or the row that microStep selects, then `done` or `continue`. -/
theorem exec_next {i : Instr} {s t : State} (h : exec i s = .next t) :
    (i = .stop ∧ s.microStep = 0 ∧ t = { s with halted := true }) ∨
    (i ≠ .stop ∧ ∃ row, (rowsOf i s)[s.microStep]? = some row ∧ s.microStep < microSteps i ∧
      t = (if s.microStep + 1 = microSteps i then finish (row s) else advance (row s))) := by
  by_cases hi : i = .stop
  · subst hi
    refine .inl ⟨rfl, ?_⟩
    simp only [exec, execStop] at h
    split at h
    · next h0 => cases h; exact ⟨h0, rfl⟩
    · cases h
  · rw [exec_eq_runRows i s hi] at h
    obtain ⟨row, hr, hl, rfl⟩ := runRows_next h
    rw [rowsOf_length i s hi] at hl
    exact .inr ⟨hi, row, hr, hl, by rw [rowsOf_length i s hi]⟩

/-- What a next state of an UNRECOGNIZED opcode is (R129, log 15). -/
theorem execUnrecognized_next {s t : State} (h : execUnrecognized s = .next t) :
    (s.params.unrecognizedMode = .noop ∧ s.microStep = 0 ∧ t = finish (markUnrecognized s)) ∨
    (s.params.unrecognizedMode = .neverCompletes ∧ t = advance (markUnrecognized s)) := by
  unfold execUnrecognized at h
  rcases hm : s.params.unrecognizedMode with _ | _
  · rw [hm] at h
    obtain ⟨h0, rfl⟩ := runRows_single_next h
    exact .inl ⟨rfl, h0, rfl⟩
  · rw [hm] at h; cases h; exact .inr ⟨rfl, rfl⟩

/-- The run of `k + 1` steps from a step that answers a next state. -/
theorem run_succ_of_next {k : Nat} {s t : State} (h : step s = .next t) : run (k + 1) s = run k t := by
  simp [run, h]

/-- `run` is the host's run of the core. -/
theorem run_eq_core_run (k : Nat) (s : State) : run k s = Host.Core.run Sys2Proof.core k s := by
  induction k generalizing s with
  | zero => rfl
  | succ k ih =>
    have hc : Sys2Proof.core.step s = step s := rfl
    rcases hs : step s with t | f | r
    · simp only [run, Host.Core.run, hc, hs]; exact ih t
    · simp only [run, Host.Core.run, hc, hs]; rfl
    · simp only [run, Host.Core.run, hc, hs]; rfl

/-! ## The host's operations -/

/-- Loading an image that fits changes ROM only (R273). -/
theorem hostLoad_next {image : List Byte} {s t : State} (h : hostLoad image s = .next t) :
    image.length ≤ 65536 ∧ t = { s with rom := Memory.ofImage 0 image } := by
  unfold hostLoad at h
  split at h
  · next hl => cases h; exact ⟨hl, rfl⟩
  · cases h

/-- Reset gives State.reset with ROM, the parameters and the two records kept (R270, log 7). -/
theorem hostReset_eq (s : State) :
    hostReset s = { State.reset with
      rom := s.rom
      params := s.params
      unrecognizedRan := s.unrecognizedRan
      sinkTrace := s.sinkTrace } := rfl

end Sys2Proof.Machine
end

