-- ==== Sys2Proof/Machine/Image.lean ====
section
/-! DEFINITION. What the assembler's rules fix of an image's bytes: numeric literals (30_encoding.md R94), the pseudo-operations
(R102, R103) and the header (R106). The assembler's algorithms are out of scope (00_scope.md R5). -/

namespace Sys2Proof.Machine

/-- The byte of a decimal literal: `v mod 256` for -128 to 255, otherwise rejected (R94). -/
def literalByte (v : Int) : Option Byte :=
  if -128 ≤ v ∧ v ≤ 255 then some (BitVec.ofInt 8 v) else none

/-- The value of a decimal digit. -/
def decimalDigit (c : Char) : Option Nat :=
  if '0' ≤ c ∧ c ≤ '9' then some (c.toNat - '0'.toNat) else none

/-- The value of a hexadecimal digit, in either case (R94). -/
def hexDigit (c : Char) : Option Nibble :=
  if '0' ≤ c ∧ c ≤ '9' then some (BitVec.ofNat 4 (c.toNat - '0'.toNat))
  else if 'a' ≤ c ∧ c ≤ 'f' then some (BitVec.ofNat 4 (c.toNat - 'a'.toNat + 10))
  else if 'A' ≤ c ∧ c ≤ 'F' then some (BitVec.ofNat 4 (c.toNat - 'A'.toNat + 10))
  else none

/-- The byte of the digits after `0x`: 1 or 2 of them, otherwise rejected (R94). -/
def hexByte (digits : List Char) : Option Byte :=
  match digits with
  | [l] => (hexDigit l).map (packNibbles 0x0)
  | [h, l] =>
    match hexDigit h, hexDigit l with
    | some x, some y => some (packNibbles x y)
    | _, _ => none
  | _ => none

/-- The number that decimal digits write, after digits that write `acc`. -/
def decimalFrom (acc : Nat) (digits : List Char) : Option Nat :=
  match digits with
  | [] => some acc
  | c :: cs =>
    match decimalDigit c with
    | some d => decimalFrom (acc * 10 + d) cs
    | none => none

/-- The byte of a numeric literal token (R94, R95): `0x` and hexadecimal digits, with a lower-case prefix (D29), or decimal
digits. A token starts with a digit; one that starts with `-` is refused (93_implementation_defined.md I16, log 18). -/
def numericLiteral (token : List Char) : Option Byte :=
  match token with
  | [] => none
  | '0' :: 'x' :: digits => hexByte digits
  | c :: cs => (decimalFrom 0 (c :: cs)).bind fun v => literalByte v

/-- `cpy d s` is `iadd d s 0` (R102). -/
def cpy (d s : RegIdx) : List Instr := [.iadd d s 0]

/-- `setadr L` is `imm rbnk L[15:8]` then `imm radr L[7:0]` (R103). -/
def setadr (l : Addr) : List Instr := [.imm 0xE (highByte l), .imm 0xF (lowByte l)]

/-- The image of a program: the header, a JMP to the entry point, then the program's bytes (R106). -/
def imageOf (q : SubSel) (entry : Addr) (body : List Byte) : List Byte := encode q (.jmp entry) ++ body

/-- The bytes of a sequence of instructions, in program order (R106). -/
def emit (q : SubSel) (is : List Instr) : List Byte := is.flatMap (encode q)

end Sys2Proof.Machine
end

