-- ==== Sys2Proof/Laws/Image.lean ====
section
/-! SUPPORT. What the assembler's numeric literals can be (30_encoding.md R94). -/

namespace Sys2Proof.Machine

/-- A decimal literal gives a byte exactly from -128 to 255, and the byte is `v mod 256`. -/
theorem literalByte_eq_some_iff (v : Int) (b : Byte) :
    literalByte v = some b ↔ (-128 ≤ v ∧ v ≤ 255) ∧ BitVec.ofInt 8 v = b := by
  unfold literalByte
  split <;> simp_all

/-- Hexadecimal digits give a byte exactly if there are 1 or 2 of them, high digit first. -/
theorem hexByte_eq_some_iff (digits : List Char) (b : Byte) :
    hexByte digits = some b ↔
      (∃ c l, digits = [c] ∧ hexDigit c = some l ∧ b = packNibbles 0x0 l) ∨
      (∃ c d h l, digits = [c, d] ∧ hexDigit c = some h ∧ hexDigit d = some l ∧ b = packNibbles h l) := by
  match digits with
  | [] => simp [hexByte]
  | [c] => simp [hexByte, eq_comm]
  | [c, d] => cases hc : hexDigit c <;> cases hd : hexDigit d <;> simp [hexByte, hc, hd, eq_comm]
  | _ :: _ :: _ :: _ => simp [hexByte]

/-- The prefix `0x` selects the hexadecimal form. -/
theorem numericLiteral_hex (digits : List Char) : numericLiteral ('0' :: 'x' :: digits) = hexByte digits := rfl

end Sys2Proof.Machine
end

