-- ==== Sys2Proof/Laws/PerInstr.lean ====
section
/-! SUPPORT. The family `EncodingHead`: an instruction's encoding starts with the opcode of its family's length (R80, R88). -/

namespace Sys2Proof.Laws.EncodingHead

/-- The encoding of `i` is an opcode byte and then as many bytes as the opcode's family asks for. -/
def Statement (i : Instr) : Prop :=
  ∀ (q : SubSel) (x : Nibble), ∃ b0 more,
    encodeWith q x i = b0 :: more ∧ more.length + 1 = instrLen (hiNibble b0)

theorem stop : Statement (.stop) := fun _ _ => ⟨_, _, rfl, by simp [Sys2Proof.Machine.hiNibble_pack, instrLen]⟩
theorem ret : Statement (.ret) := fun _ _ => ⟨_, _, rfl, by simp [Sys2Proof.Machine.hiNibble_pack, instrLen]⟩
theorem pcall : Statement (.pcall) := fun _ _ => ⟨_, _, rfl, by simp [Sys2Proof.Machine.hiNibble_pack, instrLen]⟩
theorem push (r : RegIdx) : Statement (.push r) := fun _ _ => ⟨_, _, rfl, by simp [Sys2Proof.Machine.hiNibble_pack, instrLen]⟩
theorem sto (r : RegIdx) : Statement (.sto r) := fun _ _ => ⟨_, _, rfl, by simp [Sys2Proof.Machine.hiNibble_pack, instrLen]⟩
theorem cmp (a b : RegIdx) : Statement (.cmp a b) := fun _ _ => ⟨_, _, rfl, by simp [Sys2Proof.Machine.hiNibble_pack, instrLen]⟩
theorem pop (d : RegIdx) : Statement (.pop d) := fun _ _ => ⟨_, _, rfl, by simp [Sys2Proof.Machine.hiNibble_pack, instrLen]⟩
theorem ldrom (d : RegIdx) : Statement (.ldrom d) := fun _ _ => ⟨_, _, rfl, by simp [Sys2Proof.Machine.hiNibble_pack, instrLen]⟩
theorem add (d a b : RegIdx) : Statement (.add d a b) := fun _ _ => ⟨_, _, rfl, by simp [Sys2Proof.Machine.hiNibble_pack, instrLen]⟩
theorem adc (d a b : RegIdx) : Statement (.adc d a b) := fun _ _ => ⟨_, _, rfl, by simp [Sys2Proof.Machine.hiNibble_pack, instrLen]⟩
theorem stidx (a x y : RegIdx) : Statement (.stidx a x y) := fun _ _ => ⟨_, _, rfl, by simp [Sys2Proof.Machine.hiNibble_pack, instrLen]⟩
theorem sub (d a b : RegIdx) : Statement (.sub d a b) := fun _ _ => ⟨_, _, rfl, by simp [Sys2Proof.Machine.hiNibble_pack, instrLen]⟩
theorem sbc (d a b : RegIdx) : Statement (.sbc d a b) := fun _ _ => ⟨_, _, rfl, by simp [Sys2Proof.Machine.hiNibble_pack, instrLen]⟩
theorem ldidx (d x y : RegIdx) : Statement (.ldidx d x y) := fun _ _ => ⟨_, _, rfl, by simp [Sys2Proof.Machine.hiNibble_pack, instrLen]⟩
theorem imm (d : RegIdx) (i : Byte) : Statement (.imm d i) := fun _ _ => ⟨_, _, rfl, by simp [Sys2Proof.Machine.hiNibble_pack, instrLen]⟩
theorem nand (d a b : RegIdx) : Statement (.nand d a b) := fun _ _ => ⟨_, _, rfl, by simp [Sys2Proof.Machine.hiNibble_pack, instrLen]⟩
theorem iadd (d a : RegIdx) (i : Byte) : Statement (.iadd d a i) := fun _ _ => ⟨_, _, rfl, by simp [Sys2Proof.Machine.hiNibble_pack, instrLen]⟩
theorem isub (d a : RegIdx) (i : Byte) : Statement (.isub d a i) := fun _ _ => ⟨_, _, rfl, by simp [Sys2Proof.Machine.hiNibble_pack, instrLen]⟩
theorem jmp (t : Addr) : Statement (.jmp t) := fun _ _ => ⟨_, _, rfl, by simp [Sys2Proof.Machine.hiNibble_pack, instrLen]⟩
theorem call (t : Addr) : Statement (.call t) := fun _ _ => ⟨_, _, rfl, by simp [Sys2Proof.Machine.hiNibble_pack, instrLen]⟩
theorem jz (t : Addr) : Statement (.jz t) := fun _ _ => ⟨_, _, rfl, by simp [Sys2Proof.Machine.hiNibble_pack, instrLen]⟩
theorem jn (t : Addr) : Statement (.jn t) := fun _ _ => ⟨_, _, rfl, by simp [Sys2Proof.Machine.hiNibble_pack, instrLen]⟩
theorem jc (t : Addr) : Statement (.jc t) := fun _ _ => ⟨_, _, rfl, by simp [Sys2Proof.Machine.hiNibble_pack, instrLen]⟩
theorem jo (t : Addr) : Statement (.jo t) := fun _ _ => ⟨_, _, rfl, by simp [Sys2Proof.Machine.hiNibble_pack, instrLen]⟩
theorem ldram (d : RegIdx) : Statement (.ldram d) := fun _ _ => ⟨_, _, rfl, by simp [Sys2Proof.Machine.hiNibble_pack, instrLen]⟩

end Sys2Proof.Laws.EncodingHead
end

