-- ==== Sys2Proof/Tests/Slice0.lean ====
section
/-! SUPPORT. The tests of this row: well-formedness smoke tests, decoding of words written out from the encoding table, one
step of each instruction with the values of spec/95_test_vectors.md, and for each statement with hypotheses a state that
meets them. A word's bit 0 is the least significant bit of its first byte, so the bytes 40 01 are the word 0x0140. -/

namespace Sys2Proof.Tests

open Sys2Proof Sys2Proof.Machine

/-! ## Helpers -/

/-- A view of the state that an outcome answers. -/
def seen {α : Type} (f : State → α) : Out → Option α
  | .next t => some (f t)
  | .fault _ => none
  | .refused _ => none

/-- The reset state with registers set, the program counter at 0x0100 (the place of the vectors of 95_test_vectors.md). -/
def regs (l : List (RegIdx × Byte)) : State :=
  l.foldl (fun s p => setRaw p.1 p.2 s) { State.reset with pc := 0x0100 }

/-- A RAM cell set. -/
def cell (a : Addr) (v : Byte) (s : State) : State := { s with ram := Memory.write s.ram a v }

/-- Flags set. -/
def flags (z c o n : Bool) (s : State) : State := { s with flags := ⟨z, c, o, n⟩ }

/-- Micro-step `k` of the word `w`, with its bytes fetched. -/
def atRow (nbits w k : Nat) (s : State) : State := { s.withFetchWord nbits w with microStep := k }

/-! ## Well-formedness: each check refuses an ill-formed term -/

theorem test_default_params_wellformed : defaultParams.WellFormed := by decide
theorem test_subsel_family0_clash_refused : ¬ { defaultSubSel with ret := 0x0 }.Distinct := by decide
theorem test_subsel_family1_clash_refused : ¬ { defaultSubSel with cmp := 0x1 }.Distinct := by decide
theorem test_subsel_familyE_clash_refused : ¬ { defaultSubSel with jo := 0x2 }.Distinct := by decide
theorem test_flag_positions_clash_refused : ¬ FlagPos.Distinct ⟨0, 1, 1, 3⟩ := by decide
theorem test_params_clash_refused : ¬ { defaultParams with flagPos := ⟨7, 1, 2, 7⟩ }.WellFormed := by decide
theorem test_named_registers_assemblable : (Instr.stidx 0x0 0xF 0x0).Assemblable := by decide
theorem test_reserved_register_not_assemblable : ¬ (Instr.imm 0x5 0x09).Assemblable := by decide

/-! ## Decoding: each word written out from R81 and R84, its bytes in the comment -/

theorem test_decode_stop : decodeTableWord 8 0x00 = some .stop := by decide
theorem test_decode_ret : decodeTableWord 8 0x01 = some .ret := by decide
theorem test_decode_pcall : decodeTableWord 8 0x02 = some .pcall := by decide
/-- 10 B7: the low nibble of the second byte is not looked at (R83). -/
theorem test_decode_push : decodeTableWord 16 0xB710 = some (.push 0xB) := by decide
/-- 11 EF -/
theorem test_decode_sto : decodeTableWord 16 0xEF11 = some (.sto 0xE) := by decide
/-- 12 12 -/
theorem test_decode_cmp : decodeTableWord 16 0x1212 = some (.cmp 0x1 0x2) := by decide
theorem test_decode_pop : decodeTableWord 8 0x2A = some (.pop 0xA) := by decide
theorem test_decode_ldrom : decodeTableWord 8 0x3F = some (.ldrom 0xF) := by decide
/-- 42 01 -/
theorem test_decode_add : decodeTableWord 16 0x0142 = some (.add 0x2 0x0 0x1) := by decide
/-- 52 21 -/
theorem test_decode_adc : decodeTableWord 16 0x2152 = some (.adc 0x2 0x2 0x1) := by decide
/-- 61 02 -/
theorem test_decode_stidx : decodeTableWord 16 0x0261 = some (.stidx 0x1 0x0 0x2) := by decide
/-- 7E 1B -/
theorem test_decode_sub : decodeTableWord 16 0x1B7E = some (.sub 0xE 0x1 0xB) := by decide
/-- 8A 2F -/
theorem test_decode_sbc : decodeTableWord 16 0x2F8A = some (.sbc 0xA 0x2 0xF) := by decide
/-- 92 F1 -/
theorem test_decode_ldidx : decodeTableWord 16 0xF192 = some (.ldidx 0x2 0xF 0x1) := by decide
/-- AE 30 -/
theorem test_decode_imm : decodeTableWord 16 0x30AE = some (.imm 0xE 0x30) := by decide
/-- B1 02 -/
theorem test_decode_nand : decodeTableWord 16 0x02B1 = some (.nand 0x1 0x0 0x2) := by decide
/-- C1 27 9A: the don't-care nibble is 7 -/
theorem test_decode_iadd : decodeTableWord 24 0x9A27C1 = some (.iadd 0x1 0x2 0x9A) := by decide
/-- D0 1F 80: the don't-care nibble is F -/
theorem test_decode_isub : decodeTableWord 24 0x801FD0 = some (.isub 0x0 0x1 0x80) := by decide
/-- E0 12 34 -/
theorem test_decode_jmp : decodeTableWord 24 0x3412E0 = some (.jmp 0x1234) := by decide
/-- E1 20 0C -/
theorem test_decode_call : decodeTableWord 24 0x0C20E1 = some (.call 0x200C) := by decide
/-- E2 00 14 -/
theorem test_decode_jz : decodeTableWord 24 0x1400E2 = some (.jz 0x0014) := by decide
/-- E3 01 00 -/
theorem test_decode_jn : decodeTableWord 24 0x0001E3 = some (.jn 0x0100) := by decide
/-- E4 00 40 -/
theorem test_decode_jc : decodeTableWord 24 0x4000E4 = some (.jc 0x0040) := by decide
/-- E5 FF 01 -/
theorem test_decode_jo : decodeTableWord 24 0x01FFE5 = some (.jo 0xFF01) := by decide
theorem test_decode_ldram : decodeTableWord 8 0xF1 = some (.ldram 0x1) := by decide
/-- 95_test_vectors.md 2.7: 05, 13 FF and E6 12 34 are unrecognized, and the decoder says so by name. -/
theorem test_decode_unrecognized :
    decode defaultSubSel [0x05] = .error (.unrecognized 0x05) ∧
    decode defaultSubSel [0x13, 0xFF] = .error (.unrecognized 0x13) ∧
    decode defaultSubSel [0xE6, 0x12, 0x34] = .error (.unrecognized 0xE6) := by decide
theorem test_decode_truncated : decode defaultSubSel [0xE0, 0x00] = .error .truncated := by decide

/-! ## Assembler images (95_test_vectors.md S1, S2; R94, R103) -/

/-- S1: the smallest image. -/
theorem test_image_stop : imageOf defaultSubSel 0x0003 (emit defaultSubSel [.stop]) = [0xE0, 0x00, 0x03, 0x00] := by decide
/-- S2: `cpy rc radr` is C2 F0 00. -/
theorem test_cpy_bytes : emit defaultSubSel (cpy 0x2 0xF) = [0xC2, 0xF0, 0x00] := by decide
/-- P4: `setadr` of 0x0012 is AE 00 AF 12. -/
theorem test_setadr_bytes : emit defaultSubSel (setadr 0x0012) = [0xAE, 0x00, 0xAF, 0x12] := by decide
/-- R94: -1 is 0xFF; 256 and -129 are rejected. -/
theorem test_literal_byte :
    literalByte (-1) = some 0xFF ∧ literalByte 255 = some 0xFF ∧ literalByte (-128) = some 0x80 ∧
    literalByte 256 = none ∧ literalByte (-129) = none := by decide
/-- R94: 1 or 2 hexadecimal digits in either case; 0, 3 or a letter past F are rejected, and so is the prefix 0X (D29). -/
theorem test_numeric_literal_hex :
    numericLiteral ['0', 'x', 'f'] = some 0x0F ∧ numericLiteral ['0', 'x', 'A', 'b'] = some 0xAB ∧
    numericLiteral ['0', 'x', '0', '0'] = some 0x00 ∧ numericLiteral ['0', 'x'] = none ∧
    numericLiteral ['0', 'x', '1', '0', '0'] = none ∧ numericLiteral ['0', 'x', 'g'] = none ∧
    numericLiteral ['0', 'x', '1', 'G'] = none ∧ numericLiteral ['0', 'X', '1', '0'] = none := by decide
/-- R94, I16: decimal tokens; 256, a token that starts with `-` and digits without the prefix are rejected. -/
theorem test_numeric_literal_decimal :
    numericLiteral ['0'] = some 0x00 ∧ numericLiteral ['2', '5', '5'] = some 0xFF ∧
    numericLiteral ['2', '5', '6'] = none ∧ numericLiteral ['-', '5'] = none ∧ numericLiteral ['1', 'F'] = none ∧
    numericLiteral [] = none := by decide

/-! ## One step of each instruction (95_test_vectors.md section 2) -/

/-- `add ra ra rb` (wrap) -/
theorem test_add_wraps : seen (fun t => (rawReg t 0x0, t.flags, t.pc))
    (step ((regs [(0x0, 0xFF), (0x1, 0x01)]).withFetchWord 16 0x0140)) =
    some (0x00, ⟨true, true, false, false⟩, 0x0102) := by decide
/-- `add x3 ra rb`: the write is dropped and the flags are still written. -/
theorem test_add_reserved_destination : seen (fun t => (rawReg t 0x3, t.flags))
    (step ((regs [(0x0, 0x80)]).withFetchWord 16 0x0143)) = some (0x00, ⟨false, false, true, true⟩) := by decide
/-- `adc ra ra rb` (carry-in crosses the sign) -/
theorem test_adc_carry_in : seen (fun t => (rawReg t 0x0, t.flags))
    (step ((flags false true false false (regs [(0x0, 0x7F)])).withFetchWord 16 0x0150)) =
    some (0x80, ⟨false, false, true, true⟩) := by decide
/-- `iadd ra ra 0xFF` (decrement) -/
theorem test_iadd_decrement : seen (fun t => (rawReg t 0x0, t.flags, t.pc))
    (step ((regs [(0x0, 0x05)]).withFetchWord 24 0xFF00C0)) =
    some (0x04, ⟨false, true, false, false⟩, 0x0103) := by decide
/-- `sub ra ra rb` (3 - 5) -/
theorem test_sub_borrows : seen (fun t => (rawReg t 0x0, t.flags))
    (step ((regs [(0x0, 0x03), (0x1, 0x05)]).withFetchWord 16 0x0170)) =
    some (0xFE, ⟨false, false, true, true⟩) := by decide
/-- `sub ra ra rb` (5 - 3) under SUB_IS_ADDITIVE = false: C is 0. -/
theorem test_sub_not_additive : seen (fun t => (rawReg t 0x0, t.flags))
    (step (({ regs [(0x0, 0x05), (0x1, 0x03)] with
      params := { defaultParams with subIsAdditive := false } }).withFetchWord 16 0x0170)) =
    some (0x02, ⟨false, false, false, false⟩) := by decide
/-- `sbc ra ra rb` (0 - 0 - 1) -/
theorem test_sbc_carry_in : seen (fun t => (rawReg t 0x0, t.flags))
    (step ((flags false true false false (regs [])).withFetchWord 16 0x0180)) =
    some (0xFF, ⟨false, false, true, true⟩) := by decide
/-- `isub ra ra 1` (to zero) -/
theorem test_isub_to_zero : seen (fun t => (rawReg t 0x0, t.flags))
    (step ((regs [(0x0, 0x01)]).withFetchWord 24 0x0100D0)) = some (0x00, ⟨true, true, false, false⟩) := by decide
/-- `cmp ra rb` (0x90, 1): prev is the first operand, so O stays 0. -/
theorem test_cmp_overflow_uses_first_operand : seen (fun t => (rawReg t 0x0, t.flags))
    (step ((regs [(0x0, 0x90), (0x1, 0x01)]).withFetchWord 16 0x0112)) =
    some (0x90, ⟨false, false, false, true⟩) := by decide
/-- `cmp ra rb` (equal; clears C) -/
theorem test_cmp_clears_carry : seen (fun t => t.flags)
    (step ((flags false true false false (regs [(0x0, 0x05), (0x1, 0x05)])).withFetchWord 16 0x0112)) =
    some ⟨true, false, false, false⟩ := by decide
/-- `nand ra ra rb` (flags kept) -/
theorem test_nand_keeps_flags : seen (fun t => (rawReg t 0x0, t.flags))
    (step ((flags true true false false (regs [(0x0, 0xF0), (0x1, 0x3C)])).withFetchWord 16 0x01B0)) =
    some (0xCF, ⟨true, true, false, false⟩) := by decide
/-- `imm rsp 0xF0` -/
theorem test_imm_rsp : seen (fun t => rawReg t 0xA) (step ((regs []).withFetchWord 16 0xF0AA)) = some 0xF0 := by decide
/-- `imm x5 9`: the write is dropped. -/
theorem test_imm_reserved : seen (fun t => rawReg t 0x5) (step ((regs []).withFetchWord 16 0x09A5)) = some 0x00 := by decide
/-- `sto x7`: a reserved source stores RESERVED_READ_VALUE. -/
theorem test_sto_reserved_source : seen (fun t => ramRead t 0x1020)
    (step ((cell 0x1020 0x33 (regs [(0xE, 0x10), (0xF, 0x20)])).withFetchWord 16 0x7011)) = some 0x00 := by decide
/-- `sto ra` into the stack bank -/
theorem test_sto : seen (fun t => ramRead t 0xFF00)
    (step ((regs [(0x0, 0x77), (0xE, 0xFF)]).withFetchWord 16 0x0011)) = some 0x77 := by decide
/-- `ldrom radr` -/
theorem test_ldrom : seen (fun t => rawReg t 0xF)
    (step (({ regs [(0xF, 0x12)] with rom := [(0x12, 0x7F)] }).withFetchWord 8 0x3F)) = some 0x7F := by decide
/-- `ldram rb` -/
theorem test_ldram : seen (fun t => rawReg t 0x1)
    (step ((cell 0x1020 0x5A (regs [(0xE, 0x10), (0xF, 0x20)])).withFetchWord 8 0xF1)) = some 0x5A := by decide
/-- `stidx rb ra rc` (offset wraps in the bank) -/
theorem test_stidx_wraps : seen (fun t => (ramRead t 0x1010, ramRead t 0x1110))
    (step ((regs [(0xE, 0x10), (0x0, 0xF0), (0x2, 0x20), (0x1, 0xAB)]).withFetchWord 16 0x0261)) =
    some (0xAB, 0x00) := by decide
/-- `ldidx ra ra rb` (destination is an index) -/
theorem test_ldidx_destination_is_index : seen (fun t => rawReg t 0x0)
    (step ((cell 0x2002 0xEE (regs [(0xE, 0x20), (0x0, 0x01), (0x1, 0x01)])).withFetchWord 16 0x0190)) =
    some 0xEE := by decide
/-- `jmp 0x0003` -/
theorem test_jmp : seen (fun t => (t.pc, t.fetchCount)) (step ((regs []).withFetchWord 24 0x0300E0)) = some (0x0003, 0) := by decide
/-- `jz 0x0014` (taken and not taken) -/
theorem test_jz : seen (fun t => t.pc) (step ((flags true false false false (regs [])).withFetchWord 24 0x1400E2)) = some 0x0014 ∧
    seen (fun t => t.pc) (step ((regs []).withFetchWord 24 0x1400E2)) = some 0x0103 := by decide
/-- `jn 0x0100` (taken and not taken) -/
theorem test_jn : seen (fun t => t.pc) (step ((flags false false false true (regs [])).withFetchWord 24 0x0001E3)) = some 0x0100 ∧
    seen (fun t => t.pc) (step ((regs []).withFetchWord 24 0x0001E3)) = some 0x0103 := by decide
/-- `jc 0x0040` (taken, and not taken while the other flags are set) -/
theorem test_jc : seen (fun t => t.pc) (step ((flags false true false false (regs [])).withFetchWord 24 0x4000E4)) = some 0x0040 ∧
    seen (fun t => t.pc) (step ((flags true false true true (regs [])).withFetchWord 24 0x4000E4)) = some 0x0103 := by decide
/-- `jo 0x0040` (taken) -/
theorem test_jo : seen (fun t => t.pc) (step ((flags false false true false (regs [])).withFetchWord 24 0x4000E5)) = some 0x0040 := by decide
/-- `stop`: halted, and the staging buffer is not cleared (R127). -/
theorem test_stop : seen (fun t => (t.pc, t.halted, t.stage, t.fetchCount, t.microStep)) (step ((regs []).withFetchWord 8 0x00)) =
    some (0x0101, true, ⟨0x00, 0x00, 0x00⟩, 1, 0) := by decide
/-- `push rsp` stores the value before the increment. -/
theorem test_push_row0 : seen (fun t => (ramRead t 0xFF05, rawReg t 0xA, t.microStep))
    (step ((regs [(0xA, 0x05)]).withFetchWord 16 0xA010)) = some (0x05, 0x05, 1) := by decide
/-- `push ra` (rsp wraps) -/
theorem test_push_row1_wraps : seen (fun t => rawReg t 0xA) (step (atRow 16 0x0010 1 (regs [(0xA, 0xFF)]))) = some 0x00 := by decide
/-- `pop rb` (rsp wraps) -/
theorem test_pop_row0_wraps : seen (fun t => rawReg t 0xA) (step ((regs []).withFetchWord 8 0x21)) = some 0xFF := by decide
/-- `pop rsp`: the destination write comes last. -/
theorem test_pop_row1_rsp : seen (fun t => (rawReg t 0xA, t.fetchCount))
    (step (atRow 8 0x2A 1 (cell 0xFF02 0x40 (regs [(0xA, 0x02)])))) = some (0x40, 0) := by decide
/-- `call 0x000C`, row 2: the low byte of the return address at the lower address. -/
theorem test_call_row2 : seen (fun t => ramRead t 0xFF02)
    (step (atRow 24 0x0C00E1 2 { regs [(0xA, 0x02)] with pc := 0x0007 })) = some 0x0A := by decide
/-- `call 0x000C`, row 5: rsp moves and pc gets the target. -/
theorem test_call_row5 : seen (fun t => (t.pc, rawReg t 0xA, rawReg t 0xB))
    (step (atRow 24 0x0C00E1 5 (regs [(0xA, 0x03)]))) = some (0x000C, 0x04, 0x00) := by decide
/-- `pcall`, row 5: through rbnk:radr. -/
theorem test_pcall_row5 : seen (fun t => (t.pc, rawReg t 0xA)) (step (atRow 8 0x02 5 (regs [(0xA, 0x02), (0xF, 0x0E)]))) =
    some (0x000E, 0x03) := by decide
/-- `pcall`, row 6: rbp. -/
theorem test_pcall_row6 : seen (fun t => (rawReg t 0xB, t.fetchCount)) (step (atRow 8 0x02 6 (regs [(0xA, 0x03)]))) =
    some (0x03, 0) := by decide
/-- `ret`, row 0: rsp is taken from rbp; its own value is dropped. -/
theorem test_ret_row0 : seen (fun t => rawReg t 0xA) (step ((regs [(0xA, 0x09), (0xB, 0x04)]).withFetchWord 8 0x01)) =
    some 0x03 := by decide
/-- `ret`, row 3: pc gets its low byte; the high byte stays. -/
theorem test_ret_row3 : seen (fun t => t.pc) (step (atRow 8 0x01 3 (cell 0xFF02 0x0A (regs [(0xA, 0x02)])))) =
    some 0x010A := by decide
/-- E6 12 34: three bytes, no jump, the mark set. -/
theorem test_unrecognized_is_noop : seen (fun t => (t.pc, t.unrecognizedRan, t.fetchCount))
    (step ((regs []).withFetchWord 24 0x3412E6)) = some (0x0103, true, 0) := by decide
/-- `jmp 0x1234` at 0xFFFE: the third byte is fetched from 0x0000. -/
theorem test_fetch_wraps : seen (fun t => t.pc) (step (({ regs [] with pc := 0xFFFE }).withFetchWord 24 0x3412E0)) = some 0x1234 ∧
    (({ regs [] with pc := 0xFFFE }).withFetchWord 24 0x3412E0).pc = 0x0001 := by decide
/-- A fetch from reset reads ROM[0]. -/
theorem test_fetch_first_byte : seen (fun t => (t.stage, t.fetchCount, t.pc)) (step { State.reset with rom := [(0, 0xE0)] }) =
    some (⟨0xE0, 0x00, 0x00⟩, 1, 0x0001) := by decide
/-- R261's example, "a RamWrite to address A": the sink receives the byte written there. -/
theorem test_sink_receives : seen (fun t => t.sinkTrace)
    (step (({ regs [(0x0, 0x77), (0xE, 0x10)] with
      params := { defaultParams with sinkTrigger := .writeWhen (.ramWriteIn 0x1000 0x1000) } }).withFetchWord 16 0x0011)) =
    some [0x77] := by decide
/-- Qualifying instructions STO and IMM: STO hands over the byte it stores, IMM the byte it writes to its register (none
where the write is dropped), and PUSH none. -/
theorem test_sink_qualifying_instructions :
    (let s := { regs [(0x0, 0x77)] with params := { defaultParams with
       sinkTrigger := .writeWhen (.or (.instruction .sto) (.instruction .imm)) } }
     let trace := fun n w => seen (fun t => t.sinkTrace) (step (s.withFetchWord n w))
     trace 16 0x0011 = some [0x77] ∧ trace 16 0x30AE = some [0x30] ∧ trace 16 0x09A5 = some [] ∧
       trace 16 0x0010 = some []) := by decide
/-- A register write that qualifies by its destination: `add ra ra rb` hands over the sum, `cmp ra rb` nothing. -/
theorem test_sink_register_write :
    (let s := { regs [(0x0, 0xFF), (0x1, 0x02)] with params := { defaultParams with
       sinkTrigger := .writeWhen (.registerWrite 0x0) } }
     let trace := fun n w => seen (fun t => t.sinkTrace) (step (s.withFetchWord n w))
     trace 16 0x0140 = some [0x01] ∧ trace 16 0x0141 = some [] ∧ trace 16 0x0112 = some []) := by decide
/-- Two separate addresses, 0x1000 and 0x1002: the one between them does not call the sink. -/
theorem test_sink_separate_addresses :
    let g := SinkTrigger.writeWhen (.or (.ramWriteIn 0x1000 0x1000) (.ramWriteIn 0x1002 0x1002))
    let fires := fun a => sinkFires g .sto ⟨.ram a, 0x00⟩ State.reset
    fires 0x1000 = true ∧ fires 0x1001 = false ∧ fires 0x1002 = true := by decide
/-- R35: the default positions. -/
theorem test_flags_byte : flagsByte defaultParams.flagPos ⟨true, false, true, false⟩ = 0x05 := by decide
/-- R58, R273: zeros of an image are not listed. -/
theorem test_load : seen (fun t => t.rom) (hostLoad [0xE0, 0x00, 0x03, 0x00] State.reset) = some [(0, 0xE0), (2, 0x03)] := by decide
/-- R271: reset in mid-call clears everything but ROM. -/
theorem test_reset_mid_call : hostReset (atRow 24 0x0C00E1 2 (regs [(0xA, 0x02)])) =
    { State.reset with rom := [(0x0100, 0xE1), (0x0102, 0x0C)] } := by decide

/-! ## Witnesses: for each statement with hypotheses, a state and operands that meet them -/

theorem witness_DecodeOfEncodeGivesTheInstruction : defaultSubSel.Distinct := by decide
theorem witness_BytesThatDecodeAreTheEncoding :
    decode defaultSubSel [0xC1, 0x27, 0x9A, 0x00] = .ok (.iadd 0x1 0x2 0x9A, [0x00]) := by decide
theorem witness_UnrecognizedExactlyTheUnassignedSubSelectors :
    decodeStage defaultSubSel 0xEF 0x12 0x34 = .error (.unrecognized 0xEF) := by decide
/-- One first byte of each length. -/
theorem witness_FamilyFixesTheLength :
    decode defaultSubSel [0xF0, 0xAA] = .ok (.ldram 0x0, [0xAA]) ∧
    decode defaultSubSel [0x40, 0x01, 0xAA] = .ok (.add 0x0 0x0 0x1, [0xAA]) ∧
    decode defaultSubSel [0xE0, 0x12, 0x34, 0xAA] = .ok (.jmp 0x1234, [0xAA]) := by decide
theorem witness_ReadRegFollowsTheReadMask :
    0xF ∈ State.reset.params.readable ∧ 0xD ∉ State.reset.params.readable := by decide
theorem witness_FlagsByteHoldsEachFlagAtItsPosition : 0 < 8 ∧ 7 < 8 := by decide
/-- The two boundary lengths: the longest image that loads, the shortest that is refused. -/
theorem witness_HostLoadPutsTheImageInRom :
    (List.replicate 65536 (0x01 : Byte)).length ≤ 65536 ∧ 65536 < (List.replicate 65537 (0x01 : Byte)).length := by
  simp only [List.length_replicate]
  decide
theorem witness_InvariantsAtReset : Memory.wf [(0, 0xE0), (65535, 0x01)] := by decide
theorem witness_HeaderJumpReachesTheEntryPoint :
    romRead { State.reset with rom := [(0, 0xE0), (2, 0x03)] } 0x0000 = packNibbles 0xE State.reset.params.subSel.jmp := by
  decide
theorem witness_HaltedStepChangesNothing : { State.reset with halted := true }.halted = true := by decide
/-- Both ways to fetch: a first byte, and a third one. -/
theorem witness_FetchStepStagesOneByte :
    State.reset.fetchCount = 0 ∧
    (let s := { State.reset with stage := ⟨0xE0, 0x12, 0x00⟩, fetchCount := 2, pc := 0xFFFF }
     s.halted = false ∧ s.fetchCount.val < stagedLen s) := by decide

/-- ADD staged, ready to execute. -/
def addStaged : State := (regs [(0x0, 0xFF), (0x1, 0x01)]).withFetchWord 16 0x0140

theorem witness_ExecuteStepIsExecOfTheStagedInstruction :
    addStaged.halted = false ∧ fetchPending addStaged = false ∧ decodeStaged addStaged = .ok (.add 0x0 0x0 0x1) := by decide
/-- `jz 0x0014` in ROM at 0xFFFE, across the end of the address space. -/
theorem witness_BytesAtPcAreFetchedAndExecuted :
    let s := { State.reset with pc := 0xFFFE, rom := [(0, 0x14), (0xFFFE, 0xE2)] }
    Idle s ∧ decode s.params.subSel [romRead s s.pc, romRead s (s.pc + 1), romRead s (s.pc + 2)] = .ok (.jz 0x0014, []) :=
  ⟨⟨rfl, rfl, rfl, rfl⟩, by decide⟩
theorem witness_UnrecognizedOpcodeOnlyAdvancesPc :
    let s := { State.reset with rom := [(0, 0xE6), (1, 0x12)] }
    Idle s ∧ s.params.unrecognizedMode = .noop ∧
      decodeStage s.params.subSel (romRead s s.pc) (romRead s (s.pc + 1)) (romRead s (s.pc + 2)) =
        .error (.unrecognized 0xE6) := ⟨⟨rfl, rfl, rfl, rfl⟩, rfl, by decide⟩

/-- CALL at micro-step 2, in the middle of the linkage. -/
def callRow2 : State := atRow 24 0x0C00E1 2 (regs [(0xA, 0x02)])

theorem callRow2_seqInv : SeqInv callRow2 where
  idle := by decide
  fetched := by decide
  unusedZero := by decide
  fetching := by decide
  executing := by decide
  stopped := by decide

theorem witness_EveryStepKeepsTheSequencerInvariant : ∃ t, SeqInv callRow2 ∧ step callRow2 = .next t :=
  ⟨_, callRow2_seqInv, rfl⟩
theorem witness_NoRunStopsWithAnException : SeqInv callRow2 := callRow2_seqInv
/-- Both sides of the bound: CALL's last row, and the first past it. -/
theorem witness_ExecAnswersNextExactlyBelowTheStepCount :
    (atRow 24 0x0C00E1 6 (regs [])).microStep < microSteps (.call 0x000C) ∧
    microSteps (.call 0x000C) ≤ (atRow 24 0x0C00E1 7 (regs [])).microStep := by decide
/-- `cmp ra rb` at 0x0100. -/
theorem witness_InstructionTakesItsStepCount :
    let s := { regs [] with rom := [(0x0100, 0x12), (0x0101, 0x01)] }
    s.params.subSel.Distinct ∧ Idle s ∧
      (∀ n b, (encodeWith s.params.subSel 0x0 (.cmp 0x0 0x1))[n]? = some b → romRead s (s.pc + BitVec.ofNat 16 n) = b) := by
  refine ⟨by decide, ⟨rfl, rfl, rfl, rfl⟩, fun n b h => ?_⟩
  match n with
  | 0 => rw [show b = 0x12 from (Option.some.inj h).symm]; decide
  | 1 => rw [show b = 0x01 from (Option.some.inj h).symm]; decide
  | n + 2 => simp [encodeWith] at h
/-- The bounds on the run's length are met by a number between them. -/
theorem witness_InstructionTakesItsStepCount_length :
    0 < 2 ∧ 2 < (encodeWith defaultSubSel 0x0 (.cmp 0x0 0x1)).length + microSteps (.cmp 0x0 0x1) := by decide
theorem witness_EveryStepKeepsTheMemoriesCanonical : ∃ t, MemInv callRow2 ∧ step callRow2 = .next t :=
  ⟨_, ⟨by decide, by decide⟩, rfl⟩
/-- One byte of three fetched, at the end of the address space. -/
theorem witness_StagedBytesStayTheRomBytesBeforePc :
    let s := { State.reset with rom := [(0xFFFF, 0xE0)], stage := ⟨0xE0, 0x00, 0x00⟩, fetchCount := 1 }
    ∃ t, SeqInv s ∧ StagedFromRom s ∧ step s = .next t :=
  ⟨_, ⟨by decide, by decide, by decide, by decide, by decide, by decide⟩, fun _ => by decide, rfl⟩
theorem witness_NoStepChangesRomOrParameters : ∃ t, step addStaged = .next t := ⟨_, rfl⟩
theorem witness_OnlyFlagWritersChangeFlags : ∃ t, step addStaged = .next t ∧ t.flags ≠ addStaged.flags :=
  ⟨_, rfl, by decide⟩
/-- Each case: a fetch, a halted step, a transfer, and the two one-byte writes of RET. -/
theorem witness_PcChangesOnlyByFetchAndTransfers :
    (∃ t, step State.reset = .next t ∧ State.reset.halted = false ∧ fetchPending State.reset = true) ∧
    (∃ t, step { State.reset with halted := true } = .next t) ∧
    (let s := (regs []).withFetchWord 24 0x0300E0
     ∃ t, step s = .next t ∧ s.halted = false ∧ fetchPending s = false ∧ t.pc ≠ s.pc) ∧
    (∀ k ∈ [1, 3], (atRow 8 0x01 k (regs [])).halted = false ∧ fetchPending (atRow 8 0x01 k (regs [])) = false ∧
      decodeStaged (atRow 8 0x01 k (regs [])) = .ok .ret) ∧
    (∃ t, step (atRow 8 0x01 1 (regs [])) = .next t) ∧ ∃ t, step (atRow 8 0x01 3 (regs [])) = .next t :=
  ⟨⟨_, rfl, by decide, by decide⟩, ⟨_, rfl⟩, ⟨_, rfl, by decide, by decide, by decide⟩, by decide, ⟨_, rfl⟩, ⟨_, rfl⟩⟩
/-- A storing row and another byte. -/
theorem witness_StoresReachOnlyTheComputedAddress :
    ∃ t, exec (.call 0x000C) callRow2 = .next t ∧ storeAddress (.call 0x000C) callRow2 = some 0xFF02 ∧
      storeAddress (.call 0x000C) callRow2 ≠ some 0xFF03 := ⟨_, rfl, by decide, by decide⟩
theorem witness_OnlyStopHaltsTheBlock :
    let s := (regs []).withFetchWord 8 0x00
    ∃ t, step s = .next t ∧ s.halted = false ∧ t.halted = true := ⟨_, rfl, by decide, by decide⟩
theorem witness_MarkRecordsUnrecognizedOpcodes :
    let s := (regs []).withFetchWord 8 0x05
    ∃ t, step s = .next t ∧ s.halted = false ∧ fetchPending s = false ∧ decodeStaged s = .error (.unrecognized 0x05) :=
  ⟨_, rfl, by decide, by decide, by decide⟩
/-- `imm x5 9` under the default masks, and the raw write of rsp by PUSH under a mask that has no rsp. -/
theorem witness_UnwritableSlotsKeepTheirValue :
    (let s := (regs []).withFetchWord 16 0x09A5
     ∃ t, step s = .next t ∧ (0x5 : RegIdx) ∉ s.params.writable ∧ (0x5 : RegIdx) ≠ 0xA ∧ (0x5 : RegIdx) ≠ 0xB) ∧
    (let s := atRow 16 0x0010 1 { regs [] with params := { defaultParams with writable := [0x0] } }
     ∃ t, step s = .next t ∧ (0xA : RegIdx) ∉ s.params.writable ∧ rawReg t 0xA ≠ rawReg s 0xA) :=
  ⟨⟨_, rfl, by decide, by decide, by decide⟩, ⟨_, rfl, by decide, by decide⟩⟩
/-- Under none; a RAM write and a register write that change the trace; a micro-step that writes no byte; and an address
range whose two ends and neighbours are tried. -/
theorem witness_SinkFollowsItsTriggerAndIsNeverReadBack :
    (∃ t, step callRow2 = .next t ∧ callRow2.params.sinkTrigger = .none) ∧
    (let s := { callRow2 with params := { defaultParams with sinkTrigger := .writeWhen (.instruction .call) } }
     ∃ t, step s = .next t ∧ t.sinkTrace ≠ s.sinkTrace ∧ exec (.call 0x000C) s = .next t ∧
       writtenByte (.call 0x000C) s = some ⟨.ram 0xFF02, 0x03⟩) ∧
    (let s := { addStaged with params := { defaultParams with sinkTrigger := .writeWhen (.registerWrite 0x0) } }
     ∃ t, step s = .next t ∧ t.sinkTrace ≠ s.sinkTrace ∧ exec (.add 0x0 0x0 0x1) s = .next t ∧
       writtenByte (.add 0x0 0x0 0x1) s = some ⟨.reg 0x0, 0x00⟩) ∧
    (∃ t, exec (.imm 0x5 0x09) addStaged = .next t ∧ writtenByte (.imm 0x5 0x09) addStaged = none) ∧
    (let fires := fun a => sinkFires (.writeWhen (.ramWriteIn 0x1000 0x10FF)) .sto ⟨.ram a, 0x00⟩ State.reset
     fires 0x0FFF = false ∧ fires 0x1000 = true ∧ fires 0x10FF = true ∧ fires 0x1100 = false) :=
  ⟨⟨_, rfl, rfl⟩, ⟨_, rfl, by decide, rfl, by decide⟩, ⟨_, rfl, by decide, rfl, by decide⟩, ⟨_, rfl, by decide⟩, by decide⟩
theorem witness_FlagPositionsAreInvisibleToPrograms : ∃ t, step addStaged = .next t := ⟨_, rfl⟩

/-- Micro-step 0, and a SUBSEL with distinct values: the hypotheses of the statements about one-step instructions. -/
theorem witness_microStep_zero : addStaged.microStep = 0 ∧ addStaged.params.subSel.Distinct := by decide
theorem witness_AddWritesSumAndFlags : addStaged.microStep = 0 := by decide
theorem witness_AdcWritesSumWithCarryAndFlags : (flags false true false false addStaged).microStep = 0 := by decide
theorem witness_IaddWritesSumAndFlags : addStaged.microStep = 0 := by decide
theorem witness_SubWritesDifferenceAndFlags : addStaged.microStep = 0 := by decide
theorem witness_SbcWritesDifferenceWithCarryAndFlags : (flags false true false false addStaged).microStep = 0 := by decide
theorem witness_IsubWritesDifferenceAndFlags : addStaged.microStep = 0 := by decide
theorem witness_CmpWritesFlagsOnly : addStaged.microStep = 0 ∧ defaultSubSel.Distinct := by decide
/-- Both values of NAND_SETS_FLAGS. -/
theorem witness_NandWritesComplementOfAnd :
    (addStaged.microStep = 0 ∧ addStaged.params.nandSetsFlags = false) ∧
    (let s := { addStaged with params := { defaultParams with nandSetsFlags := true } }
     s.microStep = 0 ∧ s.params.nandSetsFlags = true) := by decide
theorem witness_ImmWritesTheImmediate : addStaged.microStep = 0 := by decide
theorem witness_StoStoresAtBankAndAddress : addStaged.microStep = 0 ∧ defaultSubSel.Distinct := by decide
theorem witness_LdromLoadsFromRom : addStaged.microStep = 0 := by decide
theorem witness_LdramLoadsFromRam : addStaged.microStep = 0 := by decide
/-- Both values of STIDX_SOURCE. -/
theorem witness_StidxStoresAtTheIndexedAddress :
    (addStaged.microStep = 0 ∧ addStaged.params.stidxSource = .embedded) ∧
    (let s := { addStaged with params := { defaultParams with stidxSource := .ra } }
     s.microStep = 0 ∧ s.params.stidxSource = .ra) := by decide
theorem witness_LdidxLoadsFromTheIndexedAddress : addStaged.microStep = 0 := by decide
theorem witness_JmpSetsPcToTheTarget : addStaged.microStep = 0 ∧ defaultSubSel.Distinct := by decide
/-- A flag that is set and one that is not. -/
theorem witness_ConditionalJumpsTestTheirFlag :
    let s := flags true false false false addStaged
    s.microStep = 0 ∧ defaultSubSel.Distinct ∧
      (Instr.jz 0x0014, s.flags.z) ∈ [(Instr.jz 0x0014, true)] ∧ (Instr.jc 0x0014, s.flags.c) ∈ [(Instr.jc 0x0014, false)] := by
  decide
theorem witness_StopOnlySetsHalted : addStaged.microStep = 0 := by decide
/-- Every row that a clause of PUSH and POP names. -/
theorem witness_PushMicroSteps :
    defaultSubSel.Distinct ∧ (atRow 16 0x0010 0 (regs [])).microStep = 0 ∧ (atRow 16 0x0010 1 (regs [])).microStep = 1 := by decide
theorem witness_PopMicroSteps :
    (atRow 8 0x21 0 (regs [])).microStep = 0 ∧ (atRow 8 0x21 1 (regs [])).microStep = 1 := by decide
/-- The first and the last row of each clause; each row stands in one clause only. -/
theorem witness_CallMicroSteps :
    defaultSubSel.Distinct ∧ callRow2.microStep ∈ [0, 2, 4] ∧ (atRow 24 0x0C00E1 4 (regs [])).microStep ∈ [0, 2, 4] ∧
    (atRow 24 0x0C00E1 1 (regs [])).microStep ∈ [1, 3, 5] ∧ (atRow 24 0x0C00E1 5 (regs [])).microStep ∈ [1, 3, 5] ∧
    (atRow 24 0x0C00E1 6 (regs [])).microStep = 6 ∧ ∀ k ∈ [0, 2, 4], k ∉ [1, 3, 5] ∧ k ≠ 6 := by decide
/-- The rows, and both kinds of PCALL_TARGET. -/
theorem witness_PcallMicroSteps :
    defaultSubSel.Distinct ∧ (atRow 8 0x02 0 (regs [])).microStep ∈ [0, 2, 4] ∧
    (atRow 8 0x02 4 (regs [])).microStep ∈ [0, 2, 4] ∧ (atRow 8 0x02 1 (regs [])).microStep ∈ [1, 3, 5] ∧
    (atRow 8 0x02 6 (regs [])).microStep = 6 ∧
    (let s := atRow 8 0x02 5 (regs [])
     s.microStep = 5 ∧ s.params.pcallTarget = .registerPair 0xE 0xF) ∧
    (let s := { atRow 8 0x02 5 (regs []) with params := { defaultParams with pcallTarget := .address 0x2000 } }
     s.microStep = 5 ∧ s.params.pcallTarget = .address 0x2000) := by decide
theorem witness_RetMicroSteps :
    defaultSubSel.Distinct ∧ (atRow 8 0x01 0 (regs [])).microStep ∈ [0, 2, 4] ∧
    (atRow 8 0x01 4 (regs [])).microStep ∈ [0, 2, 4] ∧ (atRow 8 0x01 1 (regs [])).microStep ∈ [1, 3] ∧
    (atRow 8 0x01 3 (regs [])).microStep ∈ [1, 3] ∧ (atRow 8 0x01 5 (regs [])).microStep = 5 := by decide

/-- CALL 0x000C staged, its return address 0x000A (program P3 of 95_test_vectors.md). -/
def callStaged : State := ({ regs [(0xA, 0x01)] with pc := 0x0007 }).withFetchWord 24 0x0C00E1

/-- Both ways to call. -/
theorem witness_CallStoresTheLinkageAndTransfers :
    Executing (.call 0x000C) 0 callStaged ∧
    (let s := (regs [(0xF, 0x0E)]).withFetchWord 8 0x02
     Executing .pcall 0 s ∧ s.params.pcallTarget = .registerPair 0xE 0xF ∧
       (0x000E : Addr) = catBytes (rawReg s 0xE) (rawReg s 0xF) ∧ s.params.sinkTrigger = .none) :=
  ⟨⟨rfl, by decide, by decide, rfl⟩, ⟨rfl, by decide, by decide, rfl⟩, rfl, by decide, rfl⟩
theorem witness_RetRestoresFromTheFrame :
    let s := (cell 0xFF02 0x0A (regs [(0xB, 0x04)])).withFetchWord 8 0x01
    Executing .ret 0 s ∧ s.params.sinkTrigger = .none := ⟨⟨rfl, by decide, by decide, rfl⟩, rfl⟩
/-- P3's CALL, and a RET at 0x0010 with rbp and the three linkage bytes as the vector of section 2.6 has them. -/
theorem witness_RetUndoesItsCall :
    let u := ({ cell 0xFF02 0x0A (regs [(0xA, 0x09), (0xB, 0x04)]) with pc := 0x0010 }).withFetchWord 8 0x01
    ∃ t, Executing (.call 0x000C) 0 callStaged ∧ run 7 callStaged = .next t ∧ Executing .ret 0 u ∧
      rawReg u 0xB = rawReg t 0xB ∧
      ∀ k : Byte, k.toNat < 3 →
        ramRead u (catBytes 0xFF (rawReg callStaged 0xA + k)) = ramRead t (catBytes 0xFF (rawReg callStaged 0xA + k)) := by
  refine ⟨_, ⟨rfl, by decide, by decide, rfl⟩, rfl, ⟨rfl, by decide, by decide, rfl⟩, by decide, fun k hk => ?_⟩
  have h : k = 0 ∨ k = 1 ∨ k = 2 := by bv_omega
  rcases h with rfl | rfl | rfl <;> decide

end Sys2Proof.Tests
end

section
/-! SUPPORT. The program counter: which rows of the micro-step tables keep it, and O29. -/

namespace Sys2Proof.Machine

/-! ## Rows that keep pc -/

@[simp] theorem aluRow_pc (m : Mnemonic) (d : RegIdx) (k : Bool) (res : State → Byte) (s : State) :
    (aluRow m d k res s).pc = s.pc := by rw [aluRow_eq]
@[simp] theorem nandRow_pc (d a b : RegIdx) (s : State) : (nandRow d a b s).pc = s.pc := by rw [nandRow_eq]
@[simp] theorem regRow_pc (m : Mnemonic) (d : RegIdx) (v : State → Byte) (s : State) :
    (regRow m d v s).pc = s.pc := by rw [regRow_eq]
@[simp] theorem rawRow_pc (m : Mnemonic) (i : RegIdx) (v : State → Byte) (s : State) :
    (rawRow m i v s).pc = s.pc := rfl
@[simp] theorem ramRow_pc (m : Mnemonic) (a : State → Addr) (v : State → Byte) (s : State) :
    (ramRow m a v s).pc = s.pc := rfl
@[simp] theorem jumpIf_pc (c : State → Bool) (t : Addr) (s : State) :
    (jumpIf c t s).pc = if c s then t else s.pc := by rw [jumpIf_eq]

/-- The linkage of CALL and PCALL writes pc in row 5 only (R223, R224). -/
theorem linkageRow_pc {m : Mnemonic} {target : State → Addr} {k : Nat} {row : State → State}
    (hr : (linkageRows m target)[k]? = some row) (hk : k ≠ 5) (s : State) : (row s).pc = s.pc := by
  have hl : k < 7 := (List.getElem?_eq_some_iff.1 hr).1
  interval_cases k <;> cases hr
  · exact ramRow_pc ..
  · exact rawRow_pc ..
  · exact ramRow_pc ..
  · exact rawRow_pc ..
  · exact ramRow_pc ..
  · exact absurd rfl hk
  · exact rawRow_pc ..

/-- RET writes pc in rows 1 and 3 only (R225). -/
theorem retRow_pc {k : Nat} {row : State → State} (hr : retRows[k]? = some row) (hk : ¬ (k = 1 ∨ k = 3))
    (s : State) : (row s).pc = s.pc := by
  have hl : k < 6 := (List.getElem?_eq_some_iff.1 hr).1
  interval_cases k <;> cases hr
  · exact rawRow_pc ..
  · exact absurd (.inl rfl) hk
  · exact rawRow_pc ..
  · exact absurd (.inr rfl) hk
  · exact rawRow_pc ..
  · exact rawRow_pc ..

/-- PUSH never writes pc (R221). -/
theorem pushRow_pc {r : RegIdx} {k : Nat} {row : State → State} (hr : (pushRows r)[k]? = some row) (s : State) :
    (row s).pc = s.pc := by
  have hl : k < 2 := (List.getElem?_eq_some_iff.1 hr).1
  interval_cases k <;> cases hr
  · exact ramRow_pc ..
  · exact rawRow_pc ..

/-- POP never writes pc (R222). -/
theorem popRow_pc {d : RegIdx} {k : Nat} {row : State → State} (hr : (popRows d)[k]? = some row) (s : State) :
    (row s).pc = s.pc := by
  have hl : k < 2 := (List.getElem?_eq_some_iff.1 hr).1
  interval_cases k <;> cases hr
  · exact rawRow_pc ..
  · exact regRow_pc ..

/-- A row that R33 does not list keeps pc. -/
theorem row_pc_of_not_writesPc {i : Instr} {s : State} {row : State → State}
    (hr : (rowsOf i s)[s.microStep]? = some row) (hw : ¬ WritesPc s i) : (row s).pc = s.pc := by
  cases i
  case stop => cases hr
  case ret => exact retRow_pc hr hw s
  case call | pcall => exact linkageRow_pc hr hw s
  case push => exact pushRow_pc hr s
  case pop => exact popRow_pc hr s
  case jmp => exact absurd trivial hw
  all_goals
    obtain rfl := List.eq_of_mem_singleton (List.mem_of_getElem? hr)
  case jz | jn | jc | jo => exact (jumpIf_pc ..).trans (if_neg hw)
  all_goals simp

/-! ## The execute step -/

/-- An execute micro-step that R33 does not list keeps pc. -/
theorem exec_pc_of_not_writesPc {i : Instr} {s t : State} (h : exec i s = .next t) (hw : ¬ WritesPc s i) :
    t.pc = s.pc := by
  obtain ⟨-, -, rfl⟩ | ⟨-, row, hr, -, rfl⟩ := exec_next h
  · rfl
  · have hpc := row_pc_of_not_writesPc hr hw
    split <;> exact hpc

/-- An UNRECOGNIZED opcode keeps pc (R129). -/
theorem execUnrecognized_pc {s t : State} (h : execUnrecognized s = .next t) : t.pc = s.pc := by
  obtain ⟨-, -, rfl⟩ | ⟨-, rfl⟩ := execUnrecognized_next h <;> rfl

/-- RET's micro-step 1 writes the high byte of pc only (R225). -/
theorem execRet_lowByte_pc {s t : State} (h : exec .ret s = .next t) (hk : s.microStep = 1) :
    lowByte t.pc = lowByte s.pc := by
  have hrow := runRows_continue (rows := retRows) hk rfl (by decide)
  cases h.symm.trans hrow
  exact lowByte_cat ..

/-- RET's micro-step 3 writes the low byte of pc only (R225). -/
theorem execRet_highByte_pc {s t : State} (h : exec .ret s = .next t) (hk : s.microStep = 3) :
    highByte t.pc = highByte s.pc := by
  have hrow := runRows_continue (rows := retRows) hk rfl (by decide)
  cases h.symm.trans hrow
  exact highByte_cat ..

/-- The execute step of a step() call is exec of what is staged, or the UNRECOGNIZED no-op (R125, R130). -/
theorem step_executing {s t : State} (h : step s = .next t) (hh : s.halted = false) (hf : fetchPending s = false) :
    (∃ i, decodeStaged s = .ok i ∧ exec i s = .next t) ∨
      ∃ e, decodeStaged s = .error e ∧ execUnrecognized s = .next t := by
  obtain ⟨hh', -⟩ | ⟨-, hf', -⟩ | ⟨-, -, ⟨i, hd, he⟩ | ⟨e, hd, he⟩⟩ := step_cases s
  · simp [hh] at hh'
  · simp [hf] at hf'
  · exact .inl ⟨i, hd, he ▸ h⟩
  · exact .inr ⟨e, hd, he ▸ h⟩

/-- Settles O29, by what an execute micro-step that R33 does not list keeps. -/
theorem pcChangesOnlyByFetchAndTransfers : Obligations.PcChangesOnlyByFetchAndTransfers := by
  refine ⟨fun s t h => ⟨fun hh hf => ?fetch, fun hh => ?halted, fun hh hf hne => ?execute, fun hh hf hd => ?ret⟩,
    fun _ => rfl⟩
  case fetch =>
    have hstep : step s = .next (fetchByte s) := by simp [step, hh, hf]
    cases h.symm.trans hstep
    rfl
  case halted =>
    have hstep : step s = .next s := by simp [step, hh]
    cases h.symm.trans hstep
    rfl
  case execute =>
    obtain ⟨i, hd, he⟩ | ⟨-, -, he⟩ := step_executing h hh hf
    · exact ⟨i, hd, by_contra fun hw => hne (exec_pc_of_not_writesPc he hw)⟩
    · exact absurd (execUnrecognized_pc he) hne
  case ret =>
    obtain ⟨i, hi, he⟩ | ⟨e, herr, -⟩ := step_executing h hh hf
    · cases hd.symm.trans hi
      exact ⟨execRet_lowByte_pc he, execRet_highByte_pc he⟩
    · cases hd.symm.trans herr

end Sys2Proof.Machine
end

section
/-! SUPPORT. Instruction lengths and the bytes that `decode` takes, and O4. -/

namespace Sys2Proof.Machine

/-! ## LEN by family (R80) -/

theorem instrLen_eq_one {f : Nibble} (hf : f ∈ ([0x0, 0x2, 0x3, 0xF] : List Nibble)) : instrLen f = 1 := if_pos hf

theorem instrLen_eq_two {f : Nibble}
    (hf : f ∈ ([0x1, 0x4, 0x5, 0x6, 0x7, 0x8, 0x9, 0xA, 0xB] : List Nibble)) : instrLen f = 2 := by
  have apart : ∀ g ∈ ([0x1, 0x4, 0x5, 0x6, 0x7, 0x8, 0x9, 0xA, 0xB] : List Nibble),
      g ∉ ([0x0, 0x2, 0x3, 0xF] : List Nibble) ∧ g ∉ ([0xC, 0xD, 0xE] : List Nibble) := by decide
  obtain ⟨hone, hthree⟩ := apart f hf
  rw [instrLen, if_neg hone, if_neg hthree]

theorem instrLen_eq_three {f : Nibble} (hf : f ∈ ([0xC, 0xD, 0xE] : List Nibble)) : instrLen f = 3 := by
  have apart : ∀ g ∈ ([0xC, 0xD, 0xE] : List Nibble), g ∉ ([0x0, 0x2, 0x3, 0xF] : List Nibble) := by decide
  rw [instrLen, if_neg (apart f hf), if_pos hf]

/-- Every instruction has its opcode byte at least. -/
theorem instrLen_pos (f : Nibble) : 0 < instrLen f := by
  unfold instrLen
  split
  · exact Nat.one_pos
  · split <;> decide

/-! ## What `decode` answers (R88) -/

/-- `decode` answers an instruction exactly when no byte of it is missing and its staged bytes decode; what it leaves
is the bytes after the first `instrLen`. -/
theorem decode_cons_eq_ok_iff {q : SubSel} {b0 : Byte} {more rest : List Byte} {i : Instr} :
    decode q (b0 :: more) = .ok (i, rest) ↔
      instrLen (hiNibble b0) ≤ more.length + 1 ∧ decodeStage q b0 (more.getD 0 0) (more.getD 1 0) = .ok i ∧
        rest = more.drop (instrLen (hiNibble b0) - 1) := by
  by_cases hlen : more.length < instrLen (hiNibble b0) - 1
  · have hshort : ¬ instrLen (hiNibble b0) ≤ more.length + 1 := by omega
    simp [decode, hlen, hshort]
  · have henough : instrLen (hiNibble b0) ≤ more.length + 1 := by omega
    rcases hstage : decodeStage q b0 (more.getD 0 0) (more.getD 1 0) with e | i' <;>
      simp only [decode, if_neg hlen, hstage]
    · simp
    · simp [henough, eq_comm]

/-- Decoding takes `instrLen` bytes, the opcode byte among them. -/
theorem decode_cons_length {q : SubSel} {b0 : Byte} {more rest : List Byte} {i : Instr}
    (h : decode q (b0 :: more) = .ok (i, rest)) : more.length + 1 = rest.length + instrLen (hiNibble b0) := by
  obtain ⟨henough, -, rfl⟩ := decode_cons_eq_ok_iff.1 h
  have hpos := instrLen_pos (hiNibble b0)
  rw [List.length_drop]
  omega

/-- Settles O4: LEN on each of R80's three lists, and the bytes that `decode` takes. -/
theorem familyFixesTheLength : Obligations.FamilyFixesTheLength :=
  ⟨fun _ => ⟨instrLen_eq_one, instrLen_eq_two, instrLen_eq_three⟩, fun _ _ _ _ _ => decode_cons_length⟩

end Sys2Proof.Machine
end

section
/-! SUPPORT. The halted step and the fetch step of the sequencer, O16 and O17. -/

namespace Sys2Proof.Machine

/-! ## Which step is taken (R122, R124) -/

/-- A halted block has the one step that changes nothing (R122). -/
theorem step_halted {s : State} (hh : s.halted = true) : step s = .next s := if_pos hh

/-- A block that has a byte still to fetch fetches it (R124). -/
theorem step_fetching {s : State} (hh : s.halted = false) (hf : fetchPending s = true) :
    step s = .next (fetchByte s) := by
  obtain ⟨hh', -⟩ | ⟨-, -, hstep⟩ | ⟨-, hf', -⟩ := step_cases s
  · cases hh.symm.trans hh'
  · exact hstep
  · cases hf.symm.trans hf'

/-- The fetch condition in R124's words. -/
theorem fetchPending_iff {s : State} :
    fetchPending s = true ↔ s.fetchCount = 0 ∨ s.fetchCount.val < stagedLen s := by
  simp [fetchPending]

/-! ## What a fetch step does to each part of the sequencer -/

/-- No family is longer than the stage (R80). -/
theorem instrLen_le_three (f : Nibble) : instrLen f ≤ 3 := by
  unfold instrLen
  split
  · decide
  · split <;> decide

/-- Fetch never selects a slot past the third (R41). -/
theorem fetchCount_lt_three_of_fetchPending {s : State} (hf : fetchPending s = true) : s.fetchCount.val < 3 := by
  obtain hzero | hshort := fetchPending_iff.1 hf
  · simp [hzero]
  · exact hshort.trans_le (instrLen_le_three _)

/-- A fetch step writes the slot that fetchCount selects and keeps the others (R41, R124). -/
theorem fetchByte_stageByte (s : State) {j : Nat} (hj : j < 3) :
    stageByte (fetchByte s) j = if j = s.fetchCount.val then romRead s s.pc else stageByte s j := by
  rw [fetchByte_eq]
  generalize s.fetchCount.val = k
  match k with
  | 0 | 1 | 2 => interval_cases j <;> rfl
  | k + 3 =>
    have hslot : j ≠ k + 3 := by omega
    rw [if_neg hslot]
    interval_cases j <;> rfl

/-- The count does not wrap: a byte still to fetch leaves it room to grow. -/
theorem fetchByte_fetchCount {s : State} (hf : fetchPending s = true) :
    (fetchByte s).fetchCount.val = s.fetchCount.val + 1 :=
  Fin.val_add_one_of_lt' (Nat.succ_lt_succ (fetchCount_lt_three_of_fetchPending hf))

/-- A fetch step moves pc on by one, from 0xFFFF to 0 (R34). -/
theorem fetchByte_pc_toNat (s : State) : (fetchByte s).pc.toNat = (s.pc.toNat + 1) % 65536 :=
  BitVec.toNat_add s.pc 1

/-- Settles O16. -/
theorem haltedStepChangesNothing : Obligations.HaltedStepChangesNothing := fun _ => step_halted

/-- Settles O17: the step is `fetchByte`, whose lemmas give the slot, the count and pc, and whose equation the frame. -/
theorem fetchStepStagesOneByte : Obligations.FetchStepStagesOneByte := by
  intro s hh hcond
  have hf : fetchPending s = true := fetchPending_iff.2 hcond
  exact ⟨fetchByte s, step_fetching hh hf, fun _ => fetchByte_stageByte s, fetchByte_fetchCount hf,
    fetchByte_pc_toNat s, fetchByte_eq s⟩

end Sys2Proof.Machine
end

section
/-! SUPPORT. What the decoder answers for each family of opcodes, and the round trip of encoder and decoder: O1, O2, O3, O5. -/

namespace Sys2Proof.Machine

/-! ## One equation per family (R84, R85)

The families are written `0x4#4`, as simp writes a numeral. -/

section OneInstructionFamilies
variable (q : SubSel) (d : RegIdx) (b1 b2 : Byte)

@[simp] theorem decodeStage_pop : decodeStage q (packNibbles 0x2#4 d) b1 b2 = .ok (.pop d) := by simp [decodeStage]
@[simp] theorem decodeStage_ldrom : decodeStage q (packNibbles 0x3#4 d) b1 b2 = .ok (.ldrom d) := by simp [decodeStage]
@[simp] theorem decodeStage_add :
    decodeStage q (packNibbles 0x4#4 d) b1 b2 = .ok (.add d (hiNibble b1) (loNibble b1)) := by simp [decodeStage]
@[simp] theorem decodeStage_adc :
    decodeStage q (packNibbles 0x5#4 d) b1 b2 = .ok (.adc d (hiNibble b1) (loNibble b1)) := by simp [decodeStage]
@[simp] theorem decodeStage_stidx :
    decodeStage q (packNibbles 0x6#4 d) b1 b2 = .ok (.stidx d (hiNibble b1) (loNibble b1)) := by simp [decodeStage]
@[simp] theorem decodeStage_sub :
    decodeStage q (packNibbles 0x7#4 d) b1 b2 = .ok (.sub d (hiNibble b1) (loNibble b1)) := by simp [decodeStage]
@[simp] theorem decodeStage_sbc :
    decodeStage q (packNibbles 0x8#4 d) b1 b2 = .ok (.sbc d (hiNibble b1) (loNibble b1)) := by simp [decodeStage]
@[simp] theorem decodeStage_ldidx :
    decodeStage q (packNibbles 0x9#4 d) b1 b2 = .ok (.ldidx d (hiNibble b1) (loNibble b1)) := by simp [decodeStage]
@[simp] theorem decodeStage_imm : decodeStage q (packNibbles 0xA#4 d) b1 b2 = .ok (.imm d b1) := by simp [decodeStage]
@[simp] theorem decodeStage_nand :
    decodeStage q (packNibbles 0xB#4 d) b1 b2 = .ok (.nand d (hiNibble b1) (loNibble b1)) := by simp [decodeStage]
@[simp] theorem decodeStage_iadd :
    decodeStage q (packNibbles 0xC#4 d) b1 b2 = .ok (.iadd d (hiNibble b1) b2) := by simp [decodeStage]
@[simp] theorem decodeStage_isub :
    decodeStage q (packNibbles 0xD#4 d) b1 b2 = .ok (.isub d (hiNibble b1) b2) := by simp [decodeStage]
@[simp] theorem decodeStage_ldram : decodeStage q (packNibbles 0xF#4 d) b1 b2 = .ok (.ldram d) := by simp [decodeStage]

end OneInstructionFamilies

section SubSelectedFamilies
variable (q : SubSel) (n : Nibble) (b1 b2 : Byte)

theorem decodeStage_family0 :
    decodeStage q (packNibbles 0x0#4 n) b1 b2 =
      if n = q.stop then .ok .stop
      else if n = q.ret then .ok .ret
      else if n = q.pcall then .ok .pcall
      else .error (.unrecognized (packNibbles 0x0#4 n)) := by simp [decodeStage]

theorem decodeStage_family1 :
    decodeStage q (packNibbles 0x1#4 n) b1 b2 =
      if n = q.push then .ok (.push (hiNibble b1))
      else if n = q.sto then .ok (.sto (hiNibble b1))
      else if n = q.cmp then .ok (.cmp (hiNibble b1) (loNibble b1))
      else .error (.unrecognized (packNibbles 0x1#4 n)) := by simp [decodeStage]

theorem decodeStage_familyE :
    decodeStage q (packNibbles 0xE#4 n) b1 b2 =
      if n = q.jmp then .ok (.jmp (catBytes b1 b2))
      else if n = q.call then .ok (.call (catBytes b1 b2))
      else if n = q.jz then .ok (.jz (catBytes b1 b2))
      else if n = q.jn then .ok (.jn (catBytes b1 b2))
      else if n = q.jc then .ok (.jc (catBytes b1 b2))
      else if n = q.jo then .ok (.jo (catBytes b1 b2))
      else .error (.unrecognized (packNibbles 0xE#4 n)) := by simp [decodeStage]

end SubSelectedFamilies

/-! ## The assigned sub-selectors (R86)

STOP, PUSH and JMP are looked at first in their families, so they decode under every SUBSEL; the others need the values
of a family to be distinct. -/

section FirstSubSelectors
variable (q : SubSel) (b1 b2 : Byte)

@[simp] theorem decodeStage_stop : decodeStage q (packNibbles 0x0#4 q.stop) b1 b2 = .ok .stop := by
  simp [decodeStage_family0]
@[simp] theorem decodeStage_push :
    decodeStage q (packNibbles 0x1#4 q.push) b1 b2 = .ok (.push (hiNibble b1)) := by
  simp [decodeStage_family1]
@[simp] theorem decodeStage_jmp :
    decodeStage q (packNibbles 0xE#4 q.jmp) b1 b2 = .ok (.jmp (catBytes b1 b2)) := by
  simp [decodeStage_familyE]

end FirstSubSelectors

section DistinctSubSelectors
variable {q : SubSel} (hq : q.Distinct) (b1 b2 : Byte)
include hq

theorem decodeStage_ret : decodeStage q (packNibbles 0x0#4 q.ret) b1 b2 = .ok .ret := by
  grind [decodeStage_family0]
theorem decodeStage_pcall : decodeStage q (packNibbles 0x0#4 q.pcall) b1 b2 = .ok .pcall := by
  grind [decodeStage_family0]
theorem decodeStage_sto : decodeStage q (packNibbles 0x1#4 q.sto) b1 b2 = .ok (.sto (hiNibble b1)) := by
  grind [decodeStage_family1]
theorem decodeStage_cmp :
    decodeStage q (packNibbles 0x1#4 q.cmp) b1 b2 = .ok (.cmp (hiNibble b1) (loNibble b1)) := by
  grind [decodeStage_family1]
theorem decodeStage_call : decodeStage q (packNibbles 0xE#4 q.call) b1 b2 = .ok (.call (catBytes b1 b2)) := by
  grind [decodeStage_familyE]
theorem decodeStage_jz : decodeStage q (packNibbles 0xE#4 q.jz) b1 b2 = .ok (.jz (catBytes b1 b2)) := by
  grind [decodeStage_familyE]
theorem decodeStage_jn : decodeStage q (packNibbles 0xE#4 q.jn) b1 b2 = .ok (.jn (catBytes b1 b2)) := by
  grind [decodeStage_familyE]
theorem decodeStage_jc : decodeStage q (packNibbles 0xE#4 q.jc) b1 b2 = .ok (.jc (catBytes b1 b2)) := by
  grind [decodeStage_familyE]
theorem decodeStage_jo : decodeStage q (packNibbles 0xE#4 q.jo) b1 b2 = .ok (.jo (catBytes b1 b2)) := by
  grind [decodeStage_familyE]

end DistinctSubSelectors

/-! ## From an instruction to its bytes and back -/

/-- Every instruction's encoding is an opcode byte and as many bytes as its family asks for (R80). -/
theorem encodeWith_head : ∀ i : Instr, Laws.EncodingHead.Statement i
  | .stop => Laws.EncodingHead.stop
  | .ret => Laws.EncodingHead.ret
  | .pcall => Laws.EncodingHead.pcall
  | .push r => Laws.EncodingHead.push r
  | .sto r => Laws.EncodingHead.sto r
  | .cmp a b => Laws.EncodingHead.cmp a b
  | .pop d => Laws.EncodingHead.pop d
  | .ldrom d => Laws.EncodingHead.ldrom d
  | .add d a b => Laws.EncodingHead.add d a b
  | .adc d a b => Laws.EncodingHead.adc d a b
  | .stidx a x y => Laws.EncodingHead.stidx a x y
  | .sub d a b => Laws.EncodingHead.sub d a b
  | .sbc d a b => Laws.EncodingHead.sbc d a b
  | .ldidx d x y => Laws.EncodingHead.ldidx d x y
  | .imm d v => Laws.EncodingHead.imm d v
  | .nand d a b => Laws.EncodingHead.nand d a b
  | .iadd d a v => Laws.EncodingHead.iadd d a v
  | .isub d a v => Laws.EncodingHead.isub d a v
  | .jmp t => Laws.EncodingHead.jmp t
  | .call t => Laws.EncodingHead.call t
  | .jz t => Laws.EncodingHead.jz t
  | .jn t => Laws.EncodingHead.jn t
  | .jc t => Laws.EncodingHead.jc t
  | .jo t => Laws.EncodingHead.jo t
  | .ldram d => Laws.EncodingHead.ldram d

/-- Staging an instruction's encoding, whatever bytes follow it, decodes to the instruction. -/
theorem decodeStage_encodeWith {q : SubSel} (hq : q.Distinct) {x : Nibble} {i : Instr} {b0 : Byte} {more : List Byte}
    (h : encodeWith q x i = b0 :: more) (rest : List Byte) :
    decodeStage q b0 ((more ++ rest).getD 0 0) ((more ++ rest).getD 1 0) = .ok i := by
  cases i <;> cases h
  case ret => exact decodeStage_ret hq _ _
  case pcall => exact decodeStage_pcall hq _ _
  case sto => simp [decodeStage_sto hq]
  case cmp => simp [decodeStage_cmp hq]
  case call => simp [decodeStage_call hq]
  case jz => simp [decodeStage_jz hq]
  case jn => simp [decodeStage_jn hq]
  case jc => simp [decodeStage_jc hq]
  case jo => simp [decodeStage_jo hq]
  all_goals simp

/-- Settles O1, by the length of an encoding (`encodeWith_head`) and the decoding of its staged bytes. -/
theorem decodeOfEncodeGivesTheInstruction : Obligations.DecodeOfEncodeGivesTheInstruction := by
  intro q x i rest hq
  obtain ⟨b0, more, henc, hlen⟩ := encodeWith_head i q x
  rw [henc, List.cons_append, decode_cons_eq_ok_iff]
  refine ⟨?enough, decodeStage_encodeWith hq henc rest, ?rest⟩
  case enough => simp only [List.length_append]; omega
  case rest => rw [← hlen, Nat.add_sub_cancel, List.drop_left]

/-- The families that R84 gives one instruction each. -/
def oneInstructionFamilies : List Nat := [2, 3, 4, 5, 6, 7, 8, 9, 10, 11, 12, 13, 15]

/-- An opcode byte by its nibbles: of one of the three families with sub-selectors, or of a family with one
instruction. -/
theorem opcode_cases (v : Byte) :
    (∃ n, v = packNibbles 0x0#4 n) ∨ (∃ n, v = packNibbles 0x1#4 n) ∨ (∃ n, v = packNibbles 0xE#4 n) ∨
      ∃ k ∈ oneInstructionFamilies, ∃ n, v = packNibbles (BitVec.ofNat 4 k) n := by
  have hfamily : ∀ f : Nibble,
      f = 0x0#4 ∨ f = 0x1#4 ∨ f = 0xE#4 ∨ f.toNat ∈ oneInstructionFamilies := by decide
  have hv : v = packNibbles (hiNibble v) (loNibble v) := (pack_hi_lo v).symm
  obtain h | h | h | h := hfamily (hiNibble v)
  · exact .inl ⟨_, h ▸ hv⟩
  · exact .inr (.inl ⟨_, h ▸ hv⟩)
  · exact .inr (.inr (.inl ⟨_, h ▸ hv⟩))
  · exact .inr (.inr (.inr ⟨_, h, loNibble v, by simp⟩))

/-- Staged bytes that decode are the encoding of what they decode to: the don't-care nibble is the second byte's low one,
where the format has one. -/
theorem encodeWith_of_decodeStage {q : SubSel} {b0 b1 b2 : Byte} {i : Instr} (h : decodeStage q b0 b1 b2 = .ok i) :
    ∃ x, encodeWith q x i = [b0, b1, b2].take (instrLen (hiNibble b0)) := by
  refine ⟨loNibble b1, ?_⟩
  obtain ⟨n, rfl⟩ | ⟨n, rfl⟩ | ⟨n, rfl⟩ | ⟨k, hk, n, rfl⟩ := opcode_cases b0
  · rw [decodeStage_family0] at h
    split_ifs at h <;> cases h <;> simp_all [encodeWith, instrLen]
  · rw [decodeStage_family1] at h
    split_ifs at h <;> cases h <;> simp_all [encodeWith, instrLen]
  · rw [decodeStage_familyE] at h
    split_ifs at h <;> cases h <;> simp_all [encodeWith, instrLen]
  · fin_cases hk
    all_goals
      obtain rfl : _ = i := by simpa using h
      simp [encodeWith, instrLen]

/-- Where the bytes suffice, the first `instrLen` of the staged three are the first `instrLen` of the list. -/
theorem staged_take {b0 : Byte} {more : List Byte} (n : Nat) (hn : n ≤ more.length + 1) (h3 : n ≤ 3) :
    [b0, more.getD 0 0, more.getD 1 0].take n = (b0 :: more).take n := by
  match n, more with
  | 0, _ => rfl
  | 1, _ => rfl
  | 2, _ :: _ => rfl
  | 3, _ :: _ :: _ => rfl

/-- Settles O2: the staged bytes are the encoding, and `decode` leaves what comes after them. -/
theorem bytesThatDecodeAreTheEncoding : Obligations.BytesThatDecodeAreTheEncoding := by
  intro q bytes i rest h
  cases bytes with
  | nil => cases h
  | cons b0 more =>
    obtain ⟨henough, hstage, rfl⟩ := decode_cons_eq_ok_iff.1 h
    obtain ⟨x, henc⟩ := encodeWith_of_decodeStage hstage
    refine ⟨x, ?_⟩
    rw [henc, staged_take _ henough (instrLen_le_three _)]
    obtain ⟨n, hn⟩ : ∃ n, instrLen (hiNibble b0) = n + 1 := Nat.exists_eq_add_one.2 (instrLen_pos _)
    simp [hn]

/-! ## The opcodes that no instruction has (R85, R87) -/

/-- The sub-selector of `b0` is none of its family's (R85). -/
def Unassigned (q : SubSel) (b0 : Byte) : Prop :=
  (hiNibble b0 = 0x0 ∧ loNibble b0 ∉ [q.stop, q.ret, q.pcall]) ∨
    (hiNibble b0 = 0x1 ∧ loNibble b0 ∉ [q.push, q.sto, q.cmp]) ∨
    (hiNibble b0 = 0xE ∧ loNibble b0 ∉ [q.jmp, q.call, q.jz, q.jn, q.jc, q.jo])

/-- The decoder's one error, and when it answers it. -/
theorem decodeStage_eq_error_iff {q : SubSel} {b0 b1 b2 : Byte} {e : DecodeError} :
    decodeStage q b0 b1 b2 = .error e ↔ e = .unrecognized b0 ∧ Unassigned q b0 := by
  unfold Unassigned
  obtain ⟨n, rfl⟩ | ⟨n, rfl⟩ | ⟨n, rfl⟩ | ⟨k, hk, n, rfl⟩ := opcode_cases b0
  · rw [decodeStage_family0]
    split_ifs <;> simp_all [eq_comm]
  · rw [decodeStage_family1]
    split_ifs <;> simp_all [eq_comm]
  · rw [decodeStage_familyE]
    split_ifs <;> simp_all [eq_comm]
  · fin_cases hk <;> simp

/-- Settles O3. -/
theorem unrecognizedExactlyTheUnassignedSubSelectors : Obligations.UnrecognizedExactlyTheUnassignedSubSelectors :=
  fun _ b0 _ _ =>
    ⟨⟨fun ⟨_, he⟩ => (decodeStage_eq_error_iff.1 he).2,
      fun hun => ⟨.unrecognized b0, decodeStage_eq_error_iff.2 ⟨rfl, hun⟩⟩⟩,
     fun _ he => (decodeStage_eq_error_iff.1 he).1⟩

/-- Settles O5, by evaluating the decoder on the ten words. -/
theorem sampleWordsDecodeToTheirInstructions : Obligations.SampleWordsDecodeToTheirInstructions := by
  unfold Obligations.SampleWordsDecodeToTheirInstructions
  decide

end Sys2Proof.Machine
end

section
/-! SUPPORT. Registers through their masks, the flags and their byte, the data addresses, the host's reset and load, and what
holds at reset: O6 to O14. -/

namespace Sys2Proof.Machine

/-! ## Register masks (R28, R29) -/

theorem writeReg_regWritten (i : RegIdx) (v : Byte) (s : State) : RegWritten i v s (writeReg i v s) :=
  fun j => rawReg_writeReg i j v s

/-- Settles O6. -/
theorem readRegFollowsTheReadMask : Obligations.ReadRegFollowsTheReadMask :=
  ⟨fun _ _ => ⟨readReg_of_readable, readReg_of_not_readable⟩, rfl, rfl⟩

/-- Settles O7. -/
theorem writeRegFollowsTheWriteMask : Obligations.WriteRegFollowsTheWriteMask :=
  ⟨fun s i v => ⟨writeReg_regWritten i v s, writeReg_eq i v s⟩, rfl⟩

/-! ## Flags (R35, R150) -/

/-- R150's test of the old operand's sign, on the bit and on the number. -/
theorem getLsbD_seven_eq_false_iff (v : Byte) : v.getLsbD 7 = false ↔ v.toNat ≤ 0x7F := by
  rw [← BitVec.msb_eq_getLsbD_last, BitVec.msb_eq_false_iff_two_mul_lt]
  omega

/-- A state whose flags were computed by `computeFlags` has R150's four flags. -/
theorem flagsUpdated_of_computeFlags {prev res : Byte} {isAdditive : Bool} {t : State}
    (h : t.flags = computeFlags prev res isAdditive) : FlagsUpdated prev res isAdditive t := by
  rw [FlagsUpdated, h, getLsbD_seven_eq_false_iff]
  exact computeFlags_spec prev res isAdditive

/-- Settles O8. -/
theorem updateFlagsWritesTheFourFormulas : Obligations.UpdateFlagsWritesTheFourFormulas :=
  fun _ _ _ _ => ⟨flagsUpdated_of_computeFlags rfl, rfl⟩

/-- One flag, shifted to its position, shows at that position only. -/
theorem getLsbD_flagBit (f : Bool) (p : Fin 8) {j : Nat} (hj : j < 8) :
    ((BitVec.ofBool f).zeroExtend 8 <<< p.val).getLsbD j = (decide (j = p.val) && f) := by
  revert p f
  interval_cases j <;> decide

/-- Settles O9, by the bit that each of the four flags shows. -/
theorem flagsByteHoldsEachFlagAtItsPosition : Obligations.FlagsByteHoldsEachFlagAtItsPosition := by
  refine ⟨fun p f j hj => ?_, rfl⟩
  simp only [flagsByte, BitVec.getLsbD_or, getLsbD_flagBit _ _ hj]

/-! ## Addresses (R53 to R55) -/

/-- Settles O10. -/
theorem dataAddressesAreBankAndOffset : Obligations.DataAddressesAreBankAndOffset := by
  intro s x y
  refine ⟨toNat_catBytes _ _, ?indexed, toNat_catBytes _ _⟩
  case indexed => rw [eaIndexed, toNat_catBytes, BitVec.toNat_add]; rfl

/-! ## Reset and load (R46, R270, R273) -/

/-- Settles O11. -/
theorem resetCarriesTheDefaultParameters : Obligations.ResetCarriesTheDefaultParameters := by
  unfold Obligations.ResetCarriesTheDefaultParameters
  decide

@[simp] theorem rawReg_hostReset (s : State) (j : RegIdx) : rawReg (hostReset s) j = 0x00 := by
  simp [rawReg, hostReset, State.reset]

/-- Settles O12. -/
theorem hostResetGivesTheResetState : Obligations.HostResetGivesTheResetState :=
  ⟨fun s => ⟨rawReg_hostReset s, rfl, rfl, rfl, rfl, rfl, rfl, fun _ => rfl, rfl, rfl⟩, rfl⟩

/-- An image has nothing listed below its first key. -/
theorem readAt_ofImage_of_lt {j k : Nat} (h : j < k) (vs : List Byte) :
    Memory.readAt (Memory.ofImage k vs) j = unlistedByte := by
  induction vs generalizing k with
  | nil => rfl
  | cons v vs ih =>
    have htail := ih (Nat.lt_succ_of_lt h)
    unfold Memory.ofImage
    split
    · exact htail
    · exact (if_neg h.ne').trans htail

/-- An image holds its `n`-th byte at the `n`-th key from its first, and 0x00 past its end (R58, R273). -/
theorem readAt_ofImage (vs : List Byte) (k n : Nat) :
    Memory.readAt (Memory.ofImage k vs) (k + n) = vs.getD n 0x00 := by
  induction vs generalizing k n with
  | nil => rfl
  | cons v vs ih =>
    cases n with
    | zero =>
      unfold Memory.ofImage
      split
      · next hv => exact (readAt_ofImage_of_lt (Nat.lt_succ_self k) vs).trans hv.symm
      · exact if_pos rfl
    | succ n =>
      have htail : Memory.readAt (Memory.ofImage (k + 1) vs) (k + (n + 1)) = vs.getD n 0x00 := by
        rw [← ih (k + 1) n, Nat.add_right_comm, Nat.add_assoc]
      unfold Memory.ofImage
      split
      · exact htail
      · exact (if_neg (by omega)).trans htail

/-- Settles O13. -/
theorem hostLoadPutsTheImageInRom : Obligations.HostLoadPutsTheImageInRom := by
  refine fun image s => ⟨fun hfits => ?fits, fun hlong => if_neg (not_le.2 hlong)⟩
  case fits =>
    refine ⟨_, if_pos hfits, fun a => ?_, ofImage_wf image hfits, rfl⟩
    simpa [romRead, Memory.read] using readAt_ofImage image 0 a.toNat

/-! ## The invariants at reset (R123) -/

theorem hostReset_idle (s : State) : Idle (hostReset s) := ⟨rfl, rfl, rfl, rfl⟩

/-- A state that is ready to fetch meets the sequencer invariant. -/
theorem Idle.seqInv {s : State} (h : Idle s) : SeqInv s := by
  obtain ⟨hhalt, hcount, hstage, hmicro⟩ := h
  have hpend : fetchPending s = true := fetchPending_iff.2 (.inl hcount)
  exact
    { idle := fun _ => ⟨hstage, hmicro⟩
      fetched := fun hne => absurd hcount hne
      unusedZero := by simp [hstage]
      fetching := fun _ => hmicro
      executing := fun hnot => by simp [hpend] at hnot
      stopped := fun hh => by simp [hhalt] at hh }

/-- With nothing staged there is nothing to compare with ROM. -/
theorem Idle.stagedFromRom {s : State} (h : Idle s) : StagedFromRom s := by
  obtain ⟨-, hcount, -, -⟩ := h
  intro _ j hj
  simp [hcount] at hj

/-- Settles O14: State.reset is the reset of itself, so both halves are about `hostReset`. -/
theorem invariantsAtReset : Obligations.InvariantsAtReset := by
  have hreset : ∀ s : State, Memory.wf s.rom →
      SeqInv (hostReset s) ∧ MemInv (hostReset s) ∧ StagedFromRom (hostReset s) ∧ Idle (hostReset s) := fun s hrom =>
    ⟨(hostReset_idle s).seqInv, ⟨hrom, nil_wf⟩, (hostReset_idle s).stagedFromRom, hostReset_idle s⟩
  exact ⟨hreset State.reset nil_wf, hreset⟩

end Sys2Proof.Machine
end

section
/-! SUPPORT. What one step can change: the frame of every row, of exec and of step, and the statements that follow from it:
O23, O25, O27, O28, O30 to O33. -/

namespace Sys2Proof.Machine

/-! ## What a row leaves alone -/

/-- A row changes registers, pc, flags, RAM and the sink's trace; everything else stands as it was. -/
def RowFrame (s t : State) : Prop :=
  t = { s with regs := t.regs, pc := t.pc, flags := t.flags, ram := t.ram, sinkTrace := t.sinkTrace }

namespace RowFrame
variable {s t : State} (h : RowFrame s t)
include h

theorem halted : t.halted = s.halted := by rw [h]
theorem stage : t.stage = s.stage := by rw [h]
theorem fetchCount : t.fetchCount = s.fetchCount := by rw [h]
theorem microStep : t.microStep = s.microStep := by rw [h]
theorem rom : t.rom = s.rom := by rw [h]
theorem params : t.params = s.params := by rw [h]
theorem unrecognizedRan : t.unrecognizedRan = s.unrecognizedRan := by rw [h]

end RowFrame

theorem aluRow_frame (m : Mnemonic) (d : RegIdx) (k : Bool) (res : State → Byte) (s : State) :
    RowFrame s (aluRow m d k res s) := by rw [aluRow_eq]; rfl
theorem nandRow_frame (d a b : RegIdx) (s : State) : RowFrame s (nandRow d a b s) := by rw [nandRow_eq]; rfl
theorem regRow_frame (m : Mnemonic) (d : RegIdx) (v : State → Byte) (s : State) :
    RowFrame s (regRow m d v s) := by rw [regRow_eq]; rfl
theorem jumpIf_frame (c : State → Bool) (t : Addr) (s : State) : RowFrame s (jumpIf c t s) := by
  rw [jumpIf_eq]; rfl

/-- Every row of every table keeps the frame. -/
theorem row_frame {i : Instr} {s : State} {row : State → State} (hr : row ∈ rowsOf i s) (u : State) :
    RowFrame u (row u) := by
  cases i
  case stop => cases hr
  case ret | pcall | call | push =>
    simp only [rowsOf, retRows, linkageRows, pushRows, List.mem_cons, List.not_mem_nil, or_false] at hr
    rcases hr with rfl | rfl | rfl | rfl | rfl | rfl | rfl <;> rfl
  case pop =>
    simp only [rowsOf, popRows, List.mem_cons, List.not_mem_nil, or_false] at hr
    obtain rfl | rfl := hr
    · rfl
    · exact regRow_frame ..
  all_goals obtain rfl := List.eq_of_mem_singleton hr
  case add | adc | iadd | sub | sbc | isub => exact aluRow_frame ..
  case nand => exact nandRow_frame ..
  case ldrom | ldram | ldidx | imm => exact regRow_frame ..
  case jz | jn | jc | jo => exact jumpIf_frame ..
  case jmp | cmp | sto | stidx => rfl

/-! ## What exec does (R125, R126) -/

/-- Below the instruction's count of micro-steps exec answers a next state (R132). -/
theorem exec_below_count {i : Instr} {s : State} (h : s.microStep < microSteps i) : ∃ t, exec i s = .next t := by
  by_cases hi : i = .stop
  · subst hi
    exact ⟨_, if_pos (Nat.lt_one_iff.1 h)⟩
  · rw [exec_eq_runRows i s hi]
    obtain ⟨hpast, -⟩ | ⟨row, -, ⟨-, hnext⟩ | ⟨-, hnext⟩⟩ := runRows_cases (rowsOf i s) s
    · rw [rowsOf_length i s hi] at hpast
      omega
    · exact ⟨_, hnext⟩
    · exact ⟨_, hnext⟩

theorem microStep_lt_of_exec_next {i : Instr} {s t : State} (h : exec i s = .next t) : s.microStep < microSteps i := by
  obtain ⟨rfl, hzero, -⟩ | ⟨-, -, -, hlt, -⟩ := exec_next h
  · exact hzero ▸ Nat.one_pos
  · exact hlt

/-- Past the last row exec faults (log 5). -/
theorem exec_past_count {i : Instr} {s : State} (h : microSteps i ≤ s.microStep) :
    exec i s = .fault .microStepOutOfTable := by
  by_cases hi : i = .stop
  · subst hi
    exact if_neg (Nat.one_le_iff_ne_zero.1 h)
  · rw [exec_eq_runRows i s hi]
    obtain ⟨-, hfault⟩ | ⟨row, hrow, -⟩ := runRows_cases (rowsOf i s) s
    · exact hfault
    · have hlt := (List.getElem?_eq_some_iff.1 hrow).1
      rw [rowsOf_length i s hi] at hlt
      omega

/-- Settles O23. -/
theorem execAnswersNextExactlyBelowTheStepCount : Obligations.ExecAnswersNextExactlyBelowTheStepCount :=
  fun _ _ => ⟨exec_below_count, exec_past_count⟩

/-- What no micro-step changes, and that STOP alone changes halted. -/
theorem exec_frame {i : Instr} {s t : State} (h : exec i s = .next t) :
    t.rom = s.rom ∧ t.params = s.params ∧ t.unrecognizedRan = s.unrecognizedRan ∧
      (i ≠ .stop → t.halted = s.halted) := by
  obtain ⟨rfl, -, rfl⟩ | ⟨-, row, hr, -, rfl⟩ := exec_next h
  · exact ⟨rfl, rfl, rfl, fun hne => absurd rfl hne⟩
  · have hf := row_frame (List.mem_of_getElem? hr) s
    split <;> exact ⟨hf.rom, hf.params, hf.unrecognizedRan, fun _ => hf.halted⟩

/-- The registers, RAM and the sink's trace after a micro-step are those after the write of its one byte (R261). -/
theorem exec_writes {i : Instr} {s t : State} (h : exec i s = .next t) :
    t.regs = (perform (writtenByte i s) s).regs ∧ t.ram = (perform (writtenByte i s) s).ram ∧
      t.sinkTrace = s.sinkTrace ++ sinkCall (mnemonic i) (writtenByte i s) s := by
  obtain ⟨rfl, -, rfl⟩ | ⟨-, row, hr, -, rfl⟩ := exec_next h
  · exact ⟨rfl, rfl, (List.append_nil _).symm⟩
  · have hw := row_writes hr
    split <;> exact hw

/-! ## What step does (R130) -/

/-- What a next state of step is: the same when halted, one byte fetched, or one micro-step of what is staged. -/
theorem step_next {s t : State} (h : step s = .next t) :
    (s.halted = true ∧ t = s) ∨ (s.halted = false ∧ fetchPending s = true ∧ t = fetchByte s) ∨
      (s.halted = false ∧ fetchPending s = false ∧
        ((∃ i, decodeStaged s = .ok i ∧ exec i s = .next t) ∨
          ∃ e, decodeStaged s = .error e ∧ execUnrecognized s = .next t)) := by
  obtain ⟨hh, hs⟩ | ⟨hh, hf, hs⟩ | ⟨hh, hf, -⟩ := step_cases s
  · cases h.symm.trans hs
    exact .inl ⟨hh, rfl⟩
  · cases h.symm.trans hs
    exact .inr (.inl ⟨hh, hf, rfl⟩)
  · exact .inr (.inr ⟨hh, hf, step_executing h hh hf⟩)

/-- An UNRECOGNIZED opcode sets the mark and moves the sequencer, and that is all (R129, log 15). -/
theorem execUnrecognized_frame {s t : State} (h : execUnrecognized s = .next t) :
    t = { s with stage := t.stage, fetchCount := t.fetchCount, microStep := t.microStep, unrecognizedRan := true } := by
  obtain ⟨-, -, rfl⟩ | ⟨-, rfl⟩ := execUnrecognized_next h <;> rfl

/-- Settles O27. -/
theorem noStepChangesRomOrParameters : Obligations.NoStepChangesRomOrParameters := by
  intro s t h
  obtain ⟨-, rfl⟩ | ⟨-, -, rfl⟩ | ⟨-, -, ⟨i, -, he⟩ | ⟨e, -, he⟩⟩ := step_next h
  · exact ⟨rfl, rfl⟩
  · exact ⟨rfl, rfl⟩
  · obtain ⟨hrom, hparams, -, -⟩ := exec_frame he
    exact ⟨hrom, hparams⟩
  · rw [execUnrecognized_frame he]
    exact ⟨rfl, rfl⟩

/-- What a step does to registers, RAM, flags and the sink's trace, it does as an execute micro-step of an instruction. -/
theorem step_data {s t : State} (h : step s = .next t) :
    (t.regs = s.regs ∧ t.ram = s.ram ∧ t.flags = s.flags ∧ t.sinkTrace = s.sinkTrace) ∨
      ∃ i, s.halted = false ∧ fetchPending s = false ∧ decodeStaged s = .ok i ∧ exec i s = .next t := by
  obtain ⟨-, rfl⟩ | ⟨-, -, rfl⟩ | ⟨hh, hf, ⟨i, hd, he⟩ | ⟨e, -, he⟩⟩ := step_next h
  · exact .inl ⟨rfl, rfl, rfl, rfl⟩
  · exact .inl ⟨rfl, rfl, rfl, rfl⟩
  · exact .inr ⟨i, hh, hf, hd, he⟩
  · rw [execUnrecognized_frame he]
    exact .inl ⟨rfl, rfl, rfl, rfl⟩

/-! ## Memories (R57, R66) -/

theorem perform_ram_wf (w : Option Write) (s : State) (h : Memory.wf s.ram) : Memory.wf (perform w s).ram := by
  match w with
  | none | some ⟨.reg _, _⟩ | some ⟨.pcHigh, _⟩ | some ⟨.pcLow, _⟩ => exact h
  | some ⟨.ram a, v⟩ => exact write_wf s.ram a v h

/-- Settles O25: ROM is kept, and RAM is kept or one `RamWrite` was made. -/
theorem everyStepKeepsTheMemoriesCanonical : Obligations.EveryStepKeepsTheMemoriesCanonical := by
  intro s t ⟨hrom, hram⟩ h
  refine ⟨(noStepChangesRomOrParameters s t h).1 ▸ hrom, ?_⟩
  obtain ⟨-, hkept, -, -⟩ | ⟨i, -, -, -, he⟩ := step_data h
  · exact hkept ▸ hram
  · obtain ⟨-, hwritten, -⟩ := exec_writes he
    exact hwritten ▸ perform_ram_wf _ s hram

/-- Only a write to RAM at `b` can change what `b` reads. -/
theorem ramRead_perform_of_ne {w : Option Write} {b : Addr} (h : ∀ v, w ≠ some ⟨.ram b, v⟩) (s : State) :
    ramRead (perform w s) b = ramRead s b := by
  match w with
  | none | some ⟨.reg _, _⟩ | some ⟨.pcHigh, _⟩ | some ⟨.pcLow, _⟩ => rfl
  | some ⟨.ram a, v⟩ =>
    have hne : b ≠ a := fun e => h v (e ▸ rfl)
    rw [perform_ram, ramRead_ramWrite, if_neg hne]

/-- `WriteReg` writes its slot, if that is writable, and nothing else (R29). -/
theorem regWrite_eq_some_iff {d : RegIdx} {u : Byte} {s : State} {w : Write} :
    regWrite d u s = some w ↔ d ∈ s.params.writable ∧ w = ⟨.reg d, u⟩ := by
  unfold regWrite
  split <;> simp_all [eq_comm]

/-- The linkage of CALL and PCALL stores at 0xFF:rsp in rows 0, 2 and 4 (R223). -/
theorem microStep_of_linkageByte_ram {s : State} {b : Addr} {v : Byte} (h : linkageByte s = some ⟨.ram b, v⟩) :
    s.microStep ∈ [0, 2, 4] ∧ eaStack s = b := by
  unfold linkageByte at h
  split_ifs at h <;> simp_all

/-- The byte that a micro-step writes to RAM goes to `storeAddress`. -/
theorem storeAddress_of_writtenByte {i : Instr} {s : State} {b : Addr} {v : Byte} (hlt : s.microStep < microSteps i)
    (h : writtenByte i s = some ⟨.ram b, v⟩) : storeAddress i s = some b := by
  cases i
  case sto | stidx =>
    have hzero : s.microStep = 0 := Nat.lt_one_iff.1 hlt
    simp_all [writtenByte, storeAddress]
  case push =>
    simp only [writtenByte] at h
    split_ifs at h with hzero
    · simp_all [storeAddress]
    · simp at h
  case call | pcall =>
    obtain ⟨hrow, rfl⟩ := microStep_of_linkageByte_ram h
    exact if_pos hrow
  case ret =>
    simp only [writtenByte] at h
    split_ifs at h <;> simp at h
  case pop =>
    simp only [writtenByte] at h
    split_ifs at h
    · simp at h
    · cases (regWrite_eq_some_iff.1 h).2
  case cmp | jmp | jz | jn | jc | jo | stop => cases h
  all_goals cases (regWrite_eq_some_iff.1 h).2

/-- Settles O30. -/
theorem storesReachOnlyTheComputedAddress : Obligations.StoresReachOnlyTheComputedAddress := by
  intro i s t h b hne
  obtain ⟨-, hram, -⟩ := exec_writes h
  rw [ramRead_congr hram]
  exact ramRead_perform_of_ne
    (fun v hv => hne (storeAddress_of_writtenByte (microStep_lt_of_exec_next h) hv)) s

/-! ## Flags (R36) -/

/-- A row of an instruction that R36 does not list keeps the flags. -/
theorem row_flags_of_not_writesFlags {i : Instr} {s : State} {row : State → State} (hr : row ∈ rowsOf i s)
    (hw : ¬ WritesFlags s.params i) : (row s).flags = s.flags := by
  cases i
  case stop => cases hr
  case add | adc | iadd | sub | sbc | isub | cmp => exact absurd trivial hw
  case ret | pcall | call | push =>
    simp only [rowsOf, retRows, linkageRows, pushRows, List.mem_cons, List.not_mem_nil, or_false] at hr
    rcases hr with rfl | rfl | rfl | rfl | rfl | rfl | rfl <;> rfl
  case pop =>
    simp only [rowsOf, popRows, List.mem_cons, List.not_mem_nil, or_false] at hr
    obtain rfl | rfl := hr
    · rfl
    · rw [regRow_eq]
  all_goals obtain rfl := List.eq_of_mem_singleton hr
  case nand => rw [nandRow_eq]; exact if_neg hw
  case ldrom | ldram | ldidx | imm => rw [regRow_eq]
  case jz | jn | jc | jo => rw [jumpIf_eq]
  case jmp | sto | stidx => rfl

/-- Settles O28. -/
theorem onlyFlagWritersChangeFlags : Obligations.OnlyFlagWritersChangeFlags := by
  intro s t h hne
  obtain ⟨-, -, hkept, -⟩ | ⟨i, hh, hf, hd, he⟩ := step_data h
  · exact absurd hkept hne
  · refine ⟨i, hh, hf, hd, by_contra fun hw => hne ?_⟩
    obtain ⟨-, -, rfl⟩ | ⟨-, row, hr, -, rfl⟩ := exec_next he
    · rfl
    · have hflags := row_flags_of_not_writesFlags (List.mem_of_getElem? hr) hw
      split <;> exact hflags

/-! ## halted and the mark (R39, R129) -/

/-- Settles O31. -/
theorem onlyStopHaltsTheBlock : Obligations.OnlyStopHaltsTheBlock := by
  intro s t h hrun hhalt
  obtain ⟨-, rfl⟩ | ⟨-, -, rfl⟩ | ⟨-, hf, ⟨i, hd, he⟩ | ⟨e, -, he⟩⟩ := step_next h
  · cases hrun.symm.trans hhalt
  · cases hrun.symm.trans hhalt
  · refine ⟨hf, hd.trans (congrArg _ (by_contra fun hi => ?_))⟩
    obtain ⟨-, -, -, hkept⟩ := exec_frame he
    cases (hrun.symm.trans (hkept hi).symm).trans hhalt
  · rw [execUnrecognized_frame he] at hhalt
    cases hrun.symm.trans hhalt

/-- Settles O32. -/
theorem markRecordsUnrecognizedOpcodes : Obligations.MarkRecordsUnrecognizedOpcodes := by
  intro s t h
  obtain ⟨hh, rfl⟩ | ⟨hh, hf, rfl⟩ | ⟨hh, hf, ⟨i, hd, he⟩ | ⟨e, hd, he⟩⟩ := step_next h
  · simp [hh]
  · simp [hf, fetchByte_eq]
  · obtain ⟨-, -, hmark, -⟩ := exec_frame he
    simp [hmark, hd]
  · rw [execUnrecognized_frame he]
    simp [hh, hf, hd]

/-! ## Registers (R28 to R31) -/

/-- Only a write to the slot `j` can change what it holds. -/
theorem rawReg_perform_of_ne {w : Option Write} {j : RegIdx} (h : ∀ v, w ≠ some ⟨.reg j, v⟩) (s : State) :
    rawReg (perform w s) j = rawReg s j := by
  match w with
  | none | some ⟨.ram _, _⟩ | some ⟨.pcHigh, _⟩ | some ⟨.pcLow, _⟩ => rfl
  | some ⟨.reg i, v⟩ =>
    have hne : j ≠ i := fun e => h v (e ▸ rfl)
    rw [perform_reg, rawReg_setRaw, if_neg hne]

/-- The slot that `WriteReg` writes is writable (R29). -/
theorem writable_of_regWrite {d j : RegIdx} {u v : Byte} {s : State} (h : regWrite d u s = some ⟨.reg j, v⟩) :
    j ∈ s.params.writable := by
  obtain ⟨hd, hw⟩ := regWrite_eq_some_iff.1 h
  cases hw
  exact hd

/-- The linkage of CALL and PCALL moves rsp in rows 1, 3 and 5 and sets rbp in row 6 (R223). -/
theorem microStep_of_linkageByte_reg {s : State} {j : RegIdx} {v : Byte} (hlt : s.microStep < 7)
    (h : linkageByte s = some ⟨.reg j, v⟩) :
    (j = 0xA ∧ s.microStep ∈ [1, 3, 5]) ∨ (j = 0xB ∧ s.microStep = 6) := by
  unfold linkageByte at h
  generalize s.microStep = k at *
  interval_cases k <;> simp_all

/-- A slot that a micro-step writes is writable, or the write is one of the raw ones of R30 and R31. -/
theorem writable_or_writesStackReg {i : Instr} {s : State} {j : RegIdx} {v : Byte} (hlt : s.microStep < microSteps i)
    (h : writtenByte i s = some ⟨.reg j, v⟩) : j ∈ s.params.writable ∨ WritesStackReg s j i := by
  cases i
  case cmp | jmp | jz | jn | jc | jo | stop | sto | stidx => cases h
  case call | pcall => exact .inr (microStep_of_linkageByte_reg hlt h)
  case push =>
    simp only [writtenByte] at h
    split_ifs at h with hzero
    · simp at h
    · cases h
      exact .inr ⟨rfl, le_antisymm (Nat.le_of_lt_succ hlt) (Nat.one_le_iff_ne_zero.2 hzero)⟩
  case ret =>
    simp only [writtenByte] at h
    simp only [microSteps] at hlt
    simp only [WritesStackReg]
    generalize s.microStep = k at *
    interval_cases k <;> simp_all
  case pop =>
    simp only [writtenByte] at h
    split_ifs at h with hzero
    · cases h
      exact .inr ⟨rfl, hzero⟩
    · exact .inl (writable_of_regWrite h)
  all_goals exact .inl (writable_of_regWrite h)

/-- The raw writes of R30 and R31 are to rsp and rbp. -/
theorem rsp_or_rbp_of_writesStackReg {i : Instr} {s : State} {j : RegIdx} (h : WritesStackReg s j i) :
    j = 0xA ∨ j = 0xB := by
  cases i
  case push | pop => exact .inl h.1
  case call | pcall | ret => exact h.imp And.left And.left
  all_goals exact False.elim h

/-- Settles O33: a changed slot is the one that the micro-step writes. -/
theorem unwritableSlotsKeepTheirValue : Obligations.UnwritableSlotsKeepTheirValue := by
  have hraw : ∀ (s t : State) (j : RegIdx), step s = .next t → j ∉ s.params.writable → rawReg t j ≠ rawReg s j →
      ∃ i, s.halted = false ∧ fetchPending s = false ∧ decodeStaged s = .ok i ∧ WritesStackReg s j i := by
    intro s t j h hj hne
    obtain ⟨hkept, -⟩ | ⟨i, hh, hf, hd, he⟩ := step_data h
    · exact absurd (rawReg_congr hkept j) hne
    · refine ⟨i, hh, hf, hd, by_contra fun hw => hne ?_⟩
      obtain ⟨hregs, -⟩ := exec_writes he
      rw [rawReg_congr hregs]
      refine rawReg_perform_of_ne (fun v hv => ?_) s
      exact (writable_or_writesStackReg (microStep_lt_of_exec_next he) hv).elim hj hw
  refine ⟨fun s t j h hj hA hB => by_contra fun hne => ?_, hraw⟩
  obtain ⟨i, -, -, -, hw⟩ := hraw s t j h hj hne
  exact (rsp_or_rbp_of_writesStackReg hw).elim hA hB

end Sys2Proof.Machine
end

section
/-! SUPPORT. The sequencer invariant and the staged bytes along a run: O21, O22, O26. -/

namespace Sys2Proof.Machine

/-! ## What the sequencer reads -/

theorem stagedLen_congr {s t : State} (hstage : t.stage = s.stage) : stagedLen t = stagedLen s := by
  rw [stagedLen, hstage, stagedLen]

theorem fetchPending_congr {s t : State} (hstage : t.stage = s.stage) (hcount : t.fetchCount = s.fetchCount) :
    fetchPending t = fetchPending s := by
  rw [fetchPending, hcount, stagedLen_congr hstage, fetchPending]

theorem decodeStaged_congr {s t : State} (hstage : t.stage = s.stage) (hparams : t.params = s.params) :
    decodeStaged t = decodeStaged s := by
  rw [decodeStaged, hstage, hparams, decodeStaged]

theorem fetchCount_ne_zero_of_not_fetchPending {s : State} (h : fetchPending s = false) : s.fetchCount ≠ 0 :=
  fun hzero => by simp [fetchPending_iff.2 (.inl hzero)] at h

theorem microSteps_pos (i : Instr) : 0 < microSteps i := by
  cases i <;> exact Nat.succ_pos _

theorem microStepLegal_of_ok {s : State} {i : Instr} (hd : decodeStaged s = .ok i) :
    microStepLegal s = true ↔ s.microStep < microSteps i := by
  simp [microStepLegal, hd]

theorem microStepLegal_of_error {s : State} {e : DecodeError} (hd : decodeStaged s = .error e) :
    microStepLegal s = true ↔ s.params.unrecognizedMode = .neverCompletes ∨ s.microStep = 0 := by
  simp [microStepLegal, hd]

/-- Every instruction has a row 0. -/
theorem microStepLegal_of_microStep_zero {s : State} (h : s.microStep = 0) : microStepLegal s = true := by
  rcases hd : decodeStaged s with e | i
  · exact (microStepLegal_of_error hd).2 (.inr h)
  · exact (microStepLegal_of_ok hd).2 (h ▸ microSteps_pos i)

/-! ## The invariant, step by step (R123) -/

/-- The bytes fetched are at most the instruction's, the new one among them. -/
theorem fetchByte_fetchCount_le_stagedLen {s : State} (hf : fetchPending s = true) :
    (fetchByte s).fetchCount.val ≤ stagedLen (fetchByte s) := by
  rw [fetchByte_fetchCount hf]
  obtain hzero | hshort := fetchPending_iff.1 hf
  · have hval : s.fetchCount.val = 0 := by simp [hzero]
    rw [hval]
    exact instrLen_pos _
  · by_cases hzero : s.fetchCount.val = 0
    · rw [hzero]
      exact instrLen_pos _
    · have hb0 : (fetchByte s).stage.b0 = s.stage.b0 :=
        (fetchByte_stageByte s (j := 0) (by decide)).trans (if_neg (Ne.symm hzero))
      rw [stagedLen, hb0]
      exact hshort

/-- A fetch step keeps the invariant. -/
theorem fetchByte_seqInv {s : State} (hinv : SeqInv s) (hh : s.halted = false) (hf : fetchPending s = true) :
    SeqInv (fetchByte s) := by
  have hcount := fetchByte_fetchCount hf
  have hslot : ∀ j < 3, s.fetchCount.val + 1 ≤ j → stageByte (fetchByte s) j = stageByte s j := fun j hj hle =>
    (fetchByte_stageByte s hj).trans (if_neg (by omega))
  obtain ⟨hb1, hb2⟩ := hinv.unusedZero
  exact
    { idle := fun hzero => by simp [hzero] at hcount
      fetched := fun _ => fetchByte_fetchCount_le_stagedLen hf
      unusedZero :=
        ⟨fun hlt => (hslot 1 (by decide) (by omega)).trans (hb1 (by omega)),
          fun hlt => (hslot 2 (by decide) (by omega)).trans (hb2 (by omega))⟩
      fetching := fun _ => hinv.fetching hf
      executing := fun _ => microStepLegal_of_microStep_zero (hinv.fetching hf)
      stopped := fun hhalt => by cases hh.symm.trans hhalt }

/-- An execute step that keeps what is staged keeps the invariant, if the row it leaves the sequencer at exists. -/
theorem SeqInv.of_stage_kept {s t : State} (hinv : SeqInv s) (hf : fetchPending s = false)
    (hstage : t.stage = s.stage) (hcount : t.fetchCount = s.fetchCount) (hlegal : microStepLegal t = true)
    (hstop : t.halted = true → decodeStaged t = .ok .stop ∧ t.microStep = 0) : SeqInv t := by
  have hft : fetchPending t = false := (fetchPending_congr hstage hcount).trans hf
  exact
    { idle := fun hzero => absurd hzero (fetchCount_ne_zero_of_not_fetchPending hft)
      fetched := fun hne => by
        rw [hcount, stagedLen_congr hstage]
        exact hinv.fetched (hcount ▸ hne)
      unusedZero := by
        rw [hcount, hstage]
        exact hinv.unusedZero
      fetching := fun hpend => by cases hft.symm.trans hpend
      executing := fun _ => hlegal
      stopped := fun hhalt => ⟨hft, hstop hhalt⟩ }

/-- After `done` the block is ready to fetch (R126). -/
theorem finish_idle {s : State} (h : s.halted = false) : Idle (finish s) := ⟨h, rfl, rfl, rfl⟩

/-- An execute micro-step keeps the invariant. -/
theorem exec_seqInv {i : Instr} {s t : State} (hinv : SeqInv s) (hh : s.halted = false) (hf : fetchPending s = false)
    (hd : decodeStaged s = .ok i) (h : exec i s = .next t) : SeqInv t := by
  obtain ⟨rfl, hzero, rfl⟩ | ⟨-, row, hr, hlt, rfl⟩ := exec_next h
  · exact hinv.of_stage_kept hf rfl rfl (hinv.executing hf) fun _ => ⟨hd, hzero⟩
  · have hframe := row_frame (List.mem_of_getElem? hr) s
    split
    · exact (finish_idle (hframe.halted.trans hh)).seqInv
    · next hmore =>
      have hdt : decodeStaged (advance (row s)) = .ok i := (decodeStaged_congr hframe.stage hframe.params).trans hd
      refine hinv.of_stage_kept hf hframe.stage hframe.fetchCount ((microStepLegal_of_ok hdt).2 ?_) fun hhalt => ?_
      · rw [advance_microStep, hframe.microStep]
        omega
      · cases (hframe.halted.trans hh).symm.trans hhalt

/-- The execute step of an UNRECOGNIZED opcode keeps the invariant. -/
theorem execUnrecognized_seqInv {s t : State} {e : DecodeError} (hinv : SeqInv s) (hh : s.halted = false)
    (hf : fetchPending s = false) (hd : decodeStaged s = .error e) (h : execUnrecognized s = .next t) : SeqInv t := by
  obtain ⟨-, -, rfl⟩ | ⟨hmode, rfl⟩ := execUnrecognized_next h
  · exact (finish_idle (s := markUnrecognized s) hh).seqInv
  · have hdt : decodeStaged (advance (markUnrecognized s)) = .error e := hd
    exact hinv.of_stage_kept hf rfl rfl ((microStepLegal_of_error hdt).2 (.inl hmode)) fun hhalt => by
      cases hh.symm.trans hhalt

/-- Settles O21, by the three kinds of step. -/
theorem everyStepKeepsTheSequencerInvariant : Obligations.EveryStepKeepsTheSequencerInvariant := by
  intro s t hinv h
  obtain ⟨-, rfl⟩ | ⟨hh, hf, rfl⟩ | ⟨hh, hf, ⟨i, hd, he⟩ | ⟨e, hd, he⟩⟩ := step_next h
  · exact hinv
  · exact fetchByte_seqInv hinv hh hf
  · exact exec_seqInv hinv hh hf hd he
  · exact execUnrecognized_seqInv hinv hh hf hd he

/-! ## No run stops (R133, R250) -/

/-- Under the default mode a staged UNRECOGNIZED opcode completes in one micro-step (R129). -/
theorem execUnrecognized_noop {s : State} (hmode : s.params.unrecognizedMode = .noop) (hzero : s.microStep = 0) :
    execUnrecognized s = .next (finish (markUnrecognized s)) := by
  rw [execUnrecognized, hmode]
  exact runRows_single _ _ hzero

theorem execUnrecognized_neverCompletes {s : State} (hmode : s.params.unrecognizedMode = .neverCompletes) :
    execUnrecognized s = .next (advance (markUnrecognized s)) := by
  rw [execUnrecognized, hmode]

/-- From the sequencer invariant step has work. -/
theorem SeqInv.step_answers {s : State} (hinv : SeqInv s) : ∃ t, step s = .next t := by
  obtain ⟨-, hs⟩ | ⟨-, -, hs⟩ | ⟨-, hf, ⟨i, hd, hs⟩ | ⟨e, hd, hs⟩⟩ := step_cases s
  · exact ⟨_, hs⟩
  · exact ⟨_, hs⟩
  · rw [hs]
    exact exec_below_count ((microStepLegal_of_ok hd).1 (hinv.executing hf))
  · rw [hs]
    rcases hmode : s.params.unrecognizedMode with _ | _
    · obtain hnever | hzero := (microStepLegal_of_error hd).1 (hinv.executing hf)
      · cases hmode.symm.trans hnever
      · exact ⟨_, execUnrecognized_noop hmode hzero⟩
    · exact ⟨_, execUnrecognized_neverCompletes hmode⟩

/-- Settles O22, by induction on the number of steps. -/
theorem noRunStopsWithAnException : Obligations.NoRunStopsWithAnException := by
  intro k
  induction k with
  | zero => exact fun s hinv => ⟨s, rfl, hinv⟩
  | succ k ih =>
    intro s hinv
    obtain ⟨u, hstep⟩ := hinv.step_answers
    rw [run_succ_of_next hstep]
    exact ih u (everyStepKeepsTheSequencerInvariant s u hinv hstep)

/-! ## The staged bytes and ROM (R32, R41, R69) -/

/-- One byte further on, the staged bytes start at the same address. -/
theorem fetchByte_stageStart {s : State} (hf : fetchPending s = true) :
    (fetchByte s).pc - BitVec.ofNat 16 (fetchByte s).fetchCount.val = s.pc - BitVec.ofNat 16 s.fetchCount.val := by
  rw [fetchByte_fetchCount hf, BitVec.ofNat_add]
  exact add_sub_add_right_eq_sub s.pc _ 1

/-- A fetch step keeps the staged bytes equal to those before pc. -/
theorem fetchByte_stagedFromRom {s : State} (hinv : SeqInv s) (hf : fetchPending s = true) (hrom : StagedFromRom s) :
    StagedFromRom (fetchByte s) := by
  intro _ j hj
  rw [fetchByte_stageStart hf, fetchByte_stageByte s (by have := (fetchByte s).fetchCount.isLt; omega)]
  split
  · next hnew => rw [hnew, sub_add_cancel]; rfl
  · next hold =>
    rw [fetchByte_fetchCount hf] at hj
    exact hrom (hinv.fetching hf) j (by omega)

/-- Settles O26: a step that runs a row leaves microStep at 1 or more, or completes and leaves nothing staged; STOP moves
nothing. -/
theorem stagedBytesStayTheRomBytesBeforePc : Obligations.StagedBytesStayTheRomBytesBeforePc := by
  intro s t hinv hrom h
  obtain ⟨-, rfl⟩ | ⟨-, hf, rfl⟩ | ⟨hh, -, ⟨i, -, he⟩ | ⟨e, -, he⟩⟩ := step_next h
  · exact hrom
  · exact fetchByte_stagedFromRom hinv hf hrom
  · obtain ⟨-, -, rfl⟩ | ⟨-, row, hr, -, rfl⟩ := exec_next he
    · exact hrom
    · split
      · exact (finish_idle ((row_frame (List.mem_of_getElem? hr) s).halted.trans hh)).stagedFromRom
      · exact fun hzero => absurd hzero (Nat.succ_ne_zero _)
  · obtain ⟨-, -, rfl⟩ | ⟨-, rfl⟩ := execUnrecognized_next he
    · exact (finish_idle (s := markUnrecognized s) hh).stagedFromRom
    · exact fun hzero => absurd hzero (Nat.succ_ne_zero _)

end Sys2Proof.Machine
end

section
/-! SUPPORT. The sink's trigger, the byte of each micro-step, and what no step reads: the flag positions and the model's two
records: O34, O35. -/

namespace Sys2Proof.Machine

/-! ## Which step is taken, when all bytes are staged (R125) -/

theorem step_staged {s : State} {i : Instr} (hh : s.halted = false) (hf : fetchPending s = false)
    (hd : decodeStaged s = .ok i) : step s = exec i s := by
  simp [step, hh, hf, hd]

theorem step_unrecognized {s : State} {e : DecodeError} (hh : s.halted = false) (hf : fetchPending s = false)
    (hd : decodeStaged s = .error e) : step s = execUnrecognized s := by
  simp [step, hh, hf, hd]

/-! ## What no step reads -/

/-- `s` with other flag positions, another trace and another mark. -/
def recast (p : FlagPos) (trace : List Byte) (mark : Bool) (s : State) : State :=
  { s with params := { s.params with flagPos := p }, sinkTrace := trace, unrecognizedRan := mark }

section
variable (p : FlagPos) (trace : List Byte) (mark : Bool)

theorem perform_recast (w : Option Write) (s : State) :
    perform w (recast p trace mark s) = recast p trace mark (perform w s) := by
  rcases w with _ | ⟨_ | _ | _ | _, v⟩ <;> rfl

/-- No condition of SINK_TRIGGER looks at them. -/
theorem sinkHolds_recast (c : SinkCond) (m : Mnemonic) (w : Write) (s : State) :
    sinkHolds c m w (recast p trace mark s) = sinkHolds c m w s :=
  (sinkHolds_records c m w { s with params := { s.params with flagPos := p } } trace mark).trans
    (sinkHolds_params c m w s _)

theorem sinkCall_recast (m : Mnemonic) (w : Option Write) (s : State) :
    sinkCall m w (recast p trace mark s) = sinkCall m w s := by
  have htrigger : (recast p trace mark s).params.sinkTrigger = s.params.sinkTrigger := rfl
  cases w with
  | none => rfl
  | some w =>
    rw [sinkCall_byte, sinkCall_byte, htrigger]
    cases s.params.sinkTrigger with
    | none => rfl
    | writeWhen c => rw [sinkFires_writeWhen, sinkFires_writeWhen, sinkHolds_recast]

end

/-- A row that reads none of them, and that appends to the trace what it hands to the sink. -/
def Blind (row : State → State) : Prop :=
  ∀ s, ∃ bytes, (row s).sinkTrace = s.sinkTrace ++ bytes ∧
    ∀ p trace mark, row (recast p trace mark s) = recast p (trace ++ bytes) mark (row s)

/-- A row that calls no sink. -/
theorem Blind.of_silent {row : State → State} (htrace : ∀ s, (row s).sinkTrace = s.sinkTrace)
    (hrow : ∀ s p trace mark, row (recast p trace mark s) = recast p trace mark (row s)) : Blind row := fun s =>
  ⟨[], by rw [htrace, List.append_nil], fun p trace mark => by rw [hrow, List.append_nil]⟩

/-- A row that writes a byte. -/
theorem Blind.of_writing (m : Mnemonic) {w : State → Option Write} {also : State → State → State}
    (hw : ∀ s p trace mark, w (recast p trace mark s) = w s)
    (halso : ∀ s t p trace mark,
      also (recast p trace mark s) (recast p trace mark t) = recast p trace mark (also s t)) :
    Blind (writing m w also) := by
  refine fun s => ⟨sinkCall m (w s) s, rfl, fun p trace mark => ?_⟩
  rw [writing, hw, perform_recast, halso, sinkCall_recast]
  rfl

theorem blind_aluRow (m : Mnemonic) (d : RegIdx) (k : Bool) {res : State → Byte}
    (hres : ∀ s p trace mark, res (recast p trace mark s) = res s) : Blind (aluRow m d k res) :=
  .of_writing m (fun s p trace mark => by rw [hres]; rfl) fun s t p trace mark => by rw [hres]; rfl

theorem blind_nandRow (d a b : RegIdx) : Blind (nandRow d a b) := by
  unfold nandRow
  refine .of_writing .nand (fun _ _ _ _ => rfl) fun s t p trace mark => ?_
  have hsets : (recast p trace mark s).params.nandSetsFlags = s.params.nandSetsFlags := rfl
  rw [hsets]
  split <;> rfl

theorem blind_regRow (m : Mnemonic) (d : RegIdx) {v : State → Byte}
    (hv : ∀ s p trace mark, v (recast p trace mark s) = v s) : Blind (regRow m d v) :=
  .of_writing m (fun s p trace mark => by rw [hv]; rfl) fun _ _ _ _ _ => rfl

theorem blind_rawRow (m : Mnemonic) (i : RegIdx) {v : State → Byte}
    (hv : ∀ s p trace mark, v (recast p trace mark s) = v s) : Blind (rawRow m i v) :=
  .of_writing m (fun s p trace mark => by rw [hv]) fun _ _ _ _ _ => rfl

theorem blind_ramRow (m : Mnemonic) {a : State → Addr} {v : State → Byte}
    (ha : ∀ s p trace mark, a (recast p trace mark s) = a s)
    (hv : ∀ s p trace mark, v (recast p trace mark s) = v s) : Blind (ramRow m a v) :=
  .of_writing m (fun s p trace mark => by rw [ha, hv]) fun _ _ _ _ _ => rfl

theorem blind_jumpIf {c : State → Bool} (hc : ∀ s p trace mark, c (recast p trace mark s) = c s) (t : Addr) :
    Blind (jumpIf c t) := by
  refine .of_silent (fun s => by rw [jumpIf_eq]) fun s p trace mark => ?_
  rw [jumpIf, jumpIf, hc]
  split <;> rfl

theorem blind_linkageRows (m : Mnemonic) {target : State → Addr}
    (ht : ∀ s p trace mark, target (recast p trace mark s) = target s) : ∀ row ∈ linkageRows m target, Blind row := by
  simp only [linkageRows, storeStack, incRsp, List.forall_mem_cons]
  refine ⟨?_, ?_, ?_, ?_, ?_, .of_writing m ?_ fun s t p trace mark => ?_, ?_, fun _ h => nomatch h⟩
  case refine_7 => rw [ht]; rfl
  case refine_6 => exact fun _ _ _ _ => rfl
  case refine_1 | refine_3 | refine_5 => exact blind_ramRow m (fun _ _ _ _ => rfl) fun _ _ _ _ => rfl
  all_goals exact blind_rawRow m _ fun _ _ _ _ => rfl

theorem blind_retRows : ∀ row ∈ retRows, Blind row := by
  simp only [retRows, decRsp, List.forall_mem_cons]
  refine ⟨?_, ?_, ?_, ?_, ?_, ?_, fun _ h => nomatch h⟩
  case refine_2 | refine_4 => exact .of_writing .ret (fun _ _ _ _ => rfl) fun _ _ _ _ _ => rfl
  all_goals exact blind_rawRow .ret _ fun _ _ _ _ => rfl

/-- Every row of every table is blind. -/
theorem blind_of_mem_rowsOf {i : Instr} {s : State} {row : State → State} (hr : row ∈ rowsOf i s) : Blind row := by
  cases i
  case stop => cases hr
  case ret => exact blind_retRows row hr
  case call => exact blind_linkageRows .call (fun _ _ _ _ => rfl) row hr
  case pcall => exact blind_linkageRows .pcall (fun _ _ _ _ => rfl) row hr
  case push =>
    obtain rfl | hr := List.mem_cons.1 hr
    · exact blind_ramRow .push (fun _ _ _ _ => rfl) fun _ _ _ _ => rfl
    · obtain rfl := List.eq_of_mem_singleton hr
      exact blind_rawRow .push _ fun _ _ _ _ => rfl
  case pop =>
    obtain rfl | hr := List.mem_cons.1 hr
    · exact blind_rawRow .pop _ fun _ _ _ _ => rfl
    · obtain rfl := List.eq_of_mem_singleton hr
      exact blind_regRow .pop _ fun _ _ _ _ => rfl
  all_goals obtain rfl := List.eq_of_mem_singleton hr
  case add | adc | iadd | sub | sbc | isub => exact blind_aluRow _ _ _ fun _ _ _ _ => rfl
  case nand => exact blind_nandRow _ _ _
  case ldrom | ldram | ldidx | imm => exact blind_regRow _ _ fun _ _ _ _ => rfl
  case sto | stidx => exact blind_ramRow _ (fun _ _ _ _ => rfl) fun _ _ _ _ => rfl
  case jz | jn | jc | jo => exact blind_jumpIf (fun _ _ _ _ => rfl) _
  case jmp | cmp => exact .of_silent (fun _ => rfl) fun _ _ _ _ => rfl

theorem rowsOf_recast (i : Instr) (p : FlagPos) (trace : List Byte) (mark : Bool) (s : State) :
    rowsOf i (recast p trace mark s) = rowsOf i s := by
  cases i <;> rfl

/-- exec reads neither the flag positions nor the records. -/
theorem exec_recast {i : Instr} {s t : State} (h : exec i s = .next t) :
    ∃ bytes, t.sinkTrace = s.sinkTrace ++ bytes ∧
      ∀ p trace mark, exec i (recast p trace mark s) = .next (recast p (trace ++ bytes) mark t) := by
  by_cases hi : i = .stop
  · subst hi
    obtain ⟨-, hzero, rfl⟩ | ⟨hne, -⟩ := exec_next h
    · exact ⟨[], (List.append_nil _).symm, fun p trace mark => by rw [List.append_nil]; exact if_pos hzero⟩
    · exact absurd rfl hne
  · rw [exec_eq_runRows i s hi] at h
    obtain ⟨row, hr, hlt, rfl⟩ := runRows_next h
    obtain ⟨bytes, htrace, hrow⟩ := blind_of_mem_rowsOf (List.mem_of_getElem? hr) s
    refine ⟨bytes, by split <;> exact htrace, fun p trace mark => ?_⟩
    rw [exec_eq_runRows i _ hi, rowsOf_recast]
    split
    · next hlast =>
      rw [runRows_done (s := recast p trace mark s) rfl hr hlast, hrow]
      rfl
    · next hmore =>
      rw [runRows_continue (s := recast p trace mark s) rfl hr (lt_of_le_of_ne hlt hmore), hrow]
      rfl

/-- The execute step of an UNRECOGNIZED opcode reads neither of them. -/
theorem execUnrecognized_recast {s t : State} (h : execUnrecognized s = .next t) (p : FlagPos) (trace : List Byte)
    (mark : Bool) : execUnrecognized (recast p trace mark s) = .next (recast p trace true t) := by
  obtain ⟨hmode, hzero, rfl⟩ | ⟨hmode, rfl⟩ := execUnrecognized_next h
  · exact execUnrecognized_noop (s := recast p trace mark s) hmode hzero
  · exact execUnrecognized_neverCompletes (s := recast p trace mark s) hmode

/-- step reads neither the flag positions nor the records: it appends to the trace, it sets the mark, and that is all. -/
theorem step_recast {s t : State} (h : step s = .next t) :
    ∃ bytes m, t.sinkTrace = s.sinkTrace ++ bytes ∧ t.unrecognizedRan = (s.unrecognizedRan || m) ∧
      ∀ p trace mark, step (recast p trace mark s) = .next (recast p (trace ++ bytes) (mark || m) t) := by
  obtain ⟨hh, rfl⟩ | ⟨hh, hf, rfl⟩ | ⟨hh, hf, ⟨i, hd, he⟩ | ⟨e, hd, he⟩⟩ := step_next h
  · refine ⟨[], false, by simp, by simp, fun p trace mark => ?_⟩
    rw [List.append_nil, Bool.or_false, step_halted (s := recast p trace mark t) hh]
  · refine ⟨[], false, by simp [fetchByte_eq], by simp [fetchByte_eq], fun p trace mark => ?_⟩
    rw [List.append_nil, Bool.or_false, step_fetching (s := recast p trace mark s) hh hf]
    rfl
  · obtain ⟨bytes, htrace, hexec⟩ := exec_recast he
    obtain ⟨-, -, hmark, -⟩ := exec_frame he
    refine ⟨bytes, false, htrace, by rw [hmark, Bool.or_false], fun p trace mark => ?_⟩
    rw [Bool.or_false, step_staged (s := recast p trace mark s) hh hf hd, hexec]
  · refine ⟨[], true, ?_, ?_, fun p trace mark => ?_⟩
    · rw [execUnrecognized_frame he, List.append_nil]
    · rw [execUnrecognized_frame he, Bool.or_true]
    · rw [List.append_nil, Bool.or_true, step_unrecognized (s := recast p trace mark s) hh hf hd,
        execUnrecognized_recast he]

/-- Settles O35: recasting to the step's own records changes the flag positions only. -/
theorem flagPositionsAreInvisibleToPrograms : Obligations.FlagPositionsAreInvisibleToPrograms := by
  intro s t p h
  obtain ⟨bytes, m, htrace, hmark, hstep⟩ := step_recast h
  have hp := hstep p s.sinkTrace s.unrecognizedRan
  rw [← htrace, ← hmark] at hp
  exact hp

/-! ## SINK_TRIGGER (R261) -/

theorem inRam_iff {d : Dest} {first last : Addr} :
    d.inRam first last = true ↔ ∃ a, d = .ram a ∧ first ≤ a ∧ a ≤ last := by
  cases d <;> simp [Dest.inRam]

/-- RET alone writes one half of pc (R225). -/
theorem ret_of_writtenByte_pc {i : Instr} {s : State} {w : Write} (h : writtenByte i s = some w)
    (hpc : w.dest = .pcHigh ∨ w.dest = .pcLow) : i = .ret := by
  have hlink : linkageByte s ≠ some w := by
    rintro hl
    unfold linkageByte at hl
    split_ifs at hl <;> cases hl <;> simp at hpc
  have hreg : ∀ d u, regWrite d u s ≠ some w := by
    rintro d u hr
    obtain ⟨-, rfl⟩ := regWrite_eq_some_iff.1 hr
    simp at hpc
  cases i
  case ret => rfl
  case call | pcall => exact absurd h hlink
  case push =>
    simp only [writtenByte] at h
    split_ifs at h <;> cases h <;> simp at hpc
  case pop =>
    simp only [writtenByte] at h
    split_ifs at h
    · cases h
      simp at hpc
    · exact absurd h (hreg _ _)
  case sto | stidx => cases h; simp at hpc
  case cmp | jmp | jz | jn | jc | jo | stop => cases h
  all_goals exact absurd h (hreg _ _)

/-- RET's micro-steps 1 and 3 leave the byte that they read in their half of pc (R225). -/
theorem execRet_holds_pc {s t : State} {w : Write} (h : exec .ret s = .next t) (hw : writtenByte .ret s = some w)
    (hpc : w.dest = .pcHigh ∨ w.dest = .pcLow) : Holds w t := by
  simp only [writtenByte] at hw
  split_ifs at hw with h0 h1 h3 h5 <;> cases hw
  · simp at hpc
  · cases h.symm.trans (runRows_continue (rows := retRows) h1 rfl (by decide))
    exact highByte_cat ..
  · cases h.symm.trans (runRows_continue (rows := retRows) h3 rfl (by decide))
    exact lowByte_cat ..
  · simp at hpc
  · simp at hpc

/-- The byte that a micro-step writes stands where it was written. -/
theorem holds_of_writtenByte {i : Instr} {s t : State} {w : Write} (h : exec i s = .next t)
    (hw : writtenByte i s = some w) : Holds w t := by
  obtain ⟨hregs, hram, -⟩ := exec_writes h
  rw [hw] at hregs hram
  match w with
  | ⟨.reg j, v⟩ => exact (rawReg_congr hregs j).trans ((rawReg_setRaw j j v s).trans (if_pos rfl))
  | ⟨.ram a, v⟩ => exact (ramRead_congr hram a).trans ((ramRead_ramWrite a a v s).trans (if_pos rfl))
  | ⟨.pcHigh, v⟩ =>
    obtain rfl := ret_of_writtenByte_pc hw (.inl rfl)
    exact execRet_holds_pc h hw (.inl rfl)
  | ⟨.pcLow, v⟩ =>
    obtain rfl := ret_of_writtenByte_pc hw (.inr rfl)
    exact execRet_holds_pc h hw (.inr rfl)

/-- Settles O34: the conditions one by one, then exec by `exec_writes`, step by `step_data`, and the records by
`step_recast`. -/
theorem sinkFollowsItsTriggerAndIsNeverReadBack : Obligations.SinkFollowsItsTriggerAndIsNeverReadBack := by
  refine ⟨fun m w s => ?trigger, fun i s t h => ⟨fun w hw => ⟨holds_of_writtenByte h hw, ?called⟩, fun hw => ?kept⟩,
    fun s t h => ⟨fun hnone => ?silent, fun hne => ?writes⟩, fun s t trace mark h => ?records⟩
  case trigger =>
    refine ⟨rfl, fun _ _ => inRam_iff, fun _ => decide_eq_true_iff, fun _ => decide_eq_true_iff,
      fun _ _ _ => decide_eq_true_iff, ⟨rfl, rfl, rfl, rfl, rfl, rfl, rfl⟩, fun _ _ _ => ⟨rfl, rfl, rfl, rfl⟩,
      fun c => ?_, fun c d => ?_, fun c d => ?_⟩
    · simp
    · simp
    · simp
  case called =>
    obtain ⟨-, -, htrace⟩ := exec_writes h
    rw [htrace, hw, sinkCall_byte]
  case kept =>
    obtain ⟨hregs, hram, htrace⟩ := exec_writes h
    rw [hw] at hregs hram htrace
    exact ⟨rawReg_congr hregs, ramRead_congr hram, htrace.trans (List.append_nil _)⟩
  case silent =>
    obtain ⟨-, -, -, hkept⟩ | ⟨i, -, -, -, he⟩ := step_data h
    · exact hkept
    · obtain ⟨-, -, htrace⟩ := exec_writes he
      rw [SinkKept, htrace, sinkCall_of_none hnone, List.append_nil]
  case writes =>
    obtain ⟨-, -, -, hkept⟩ | ⟨i, hh, hf, hd, he⟩ := step_data h
    · exact absurd hkept hne
    · obtain ⟨-, -, htrace⟩ := exec_writes he
      rcases hw : writtenByte i s with _ | w
      · rw [hw, sinkCall_nothing, List.append_nil] at htrace
        exact absurd htrace hne
      · exact ⟨i, w, hh, hf, hd, hw⟩
  case records =>
    obtain ⟨bytes, m, -, -, hstep⟩ := step_recast h
    obtain ⟨-, hparams⟩ := noStepChangesRomOrParameters s t h
    refine ⟨_, hstep s.params.flagPos trace mark, ?_⟩
    rw [recast, ← hparams]

end Sys2Proof.Machine
end

section
/-! SUPPORT. From the first fetch of an instruction to its completion: O15, O18, O19, O20, O24. -/

namespace Sys2Proof.Machine

/-! ## Runs -/

theorem run_one (s : State) : run 1 s = step s := by
  rw [run]
  cases step s <;> rfl

/-- A run goes on from where a shorter one has come to. -/
theorem run_add {j : Nat} {s t : State} (h : run j s = .next t) (k : Nat) : run (j + k) s = run k t := by
  induction j generalizing s with
  | zero =>
    cases h
    rw [Nat.zero_add]
  | succ j ih =>
    rw [run] at h
    split at h
    · next u hstep =>
      rw [Nat.succ_add, run_succ_of_next hstep]
      exact ih h
    · cases h
    · cases h

/-- A run with one step more. -/
theorem run_succ {k : Nat} {s t : State} (h : run k s = .next t) : run (k + 1) s = step t := by
  rw [run_add h, run_one]

/-! ## The fetch of an instruction's bytes (R124) -/

/-- From `s`, `k` bytes have been fetched: they stand in their slots, the other slots hold 0x00, pc has moved on by
`k`, and nothing else has changed. -/
structure Fetched (s : State) (k : Nat) (u : State) : Prop where
  frame : u = { s with stage := u.stage, fetchCount := u.fetchCount, pc := s.pc + BitVec.ofNat 16 k }
  count : u.fetchCount.val = k
  slots : ∀ j < 3, stageByte u j = if j < k then romRead s (s.pc + BitVec.ofNat 16 j) else 0x00

/-- LEN of the instruction that pc points at (R80, R88). -/
def lenAtPc (s : State) : Nat := instrLen (hiNibble (romRead s s.pc))

namespace Fetched
variable {s u : State} {k : Nat}

theorem zero (h : Idle s) : Fetched s 0 s := by
  obtain ⟨-, hcount, hstage, -⟩ := h
  refine ⟨?_, by simp [hcount], fun j hj => ?_⟩
  · rw [BitVec.add_zero]
  · rw [if_neg (Nat.not_lt_zero j)]
    interval_cases j <;> simp [stageByte, hstage]

theorem rom (h : Fetched s k u) : u.rom = s.rom := by rw [h.frame]
theorem params (h : Fetched s k u) : u.params = s.params := by rw [h.frame]
theorem halted (h : Fetched s k u) : u.halted = s.halted := by rw [h.frame]
theorem microStep (h : Fetched s k u) : u.microStep = s.microStep := by rw [h.frame]
theorem pc (h : Fetched s k u) : u.pc = s.pc + BitVec.ofNat 16 k := by rw [h.frame]

/-- The opcode byte is staged first. -/
theorem opcode (h : Fetched s k u) (hk : 0 < k) : u.stage.b0 = romRead s s.pc := by
  have hslot := h.slots 0 (by decide)
  rwa [if_pos hk, BitVec.add_zero] at hslot

/-- Once a byte is staged, the staged length is that of the instruction at pc. -/
theorem stagedLen (h : Fetched s k u) (hk : 0 < k) : stagedLen u = lenAtPc s := by
  rw [Machine.stagedLen, h.opcode hk, lenAtPc]

/-- A byte is still to be fetched while fewer than LEN are. -/
theorem fetchPending_iff (h : Fetched s k u) : fetchPending u = true ↔ k < lenAtPc s := by
  have hcount := h.count
  rw [Machine.fetchPending_iff, ← Fin.val_eq_zero_iff, hcount]
  obtain rfl | hk := Nat.eq_zero_or_pos k
  · exact iff_of_true (.inl rfl) (instrLen_pos _)
  · rw [h.stagedLen hk]
    omega

theorem not_fetchPending (h : Fetched s (lenAtPc s) u) : fetchPending u = false :=
  Bool.eq_false_iff.2 fun hpend => (h.fetchPending_iff.1 hpend).ne rfl

/-- The next byte. -/
theorem succ (h : Fetched s k u) (hk : k < lenAtPc s) : Fetched s (k + 1) (fetchByte u) := by
  have hpc : u.pc + 1 = s.pc + BitVec.ofNat 16 (k + 1) := by
    rw [h.pc, BitVec.add_assoc, BitVec.ofNat_add]
    rfl
  refine ⟨?_, ?_, fun j hj => ?_⟩
  · rw [fetchByte_eq, hpc, h.frame]
  · rw [fetchByte_fetchCount (h.fetchPending_iff.2 hk), h.count]
  · rw [fetchByte_stageByte u hj, h.count, h.slots j hj, romRead_congr h.rom, h.pc]
    obtain hlt | rfl | hgt := lt_trichotomy j k
    · rw [if_neg hlt.ne, if_pos hlt, if_pos (Nat.lt_succ_of_lt hlt)]
    · rw [if_pos rfl, if_pos (Nat.lt_succ_self j)]
    · rw [if_neg hgt.ne', if_neg hgt.not_gt, if_neg (by omega)]

end Fetched

/-- Up to LEN steps from a state that is ready to fetch fetch a byte each. -/
theorem run_fetched {s : State} (h : Idle s) {k : Nat} (hk : k ≤ lenAtPc s) :
    ∃ u, run k s = .next u ∧ Fetched s k u := by
  obtain ⟨hh, -⟩ := id h
  induction k with
  | zero => exact ⟨s, rfl, .zero h⟩
  | succ k ih =>
    obtain ⟨u, hrun, hu⟩ := ih (Nat.le_of_succ_le hk)
    refine ⟨fetchByte u, ?_, hu.succ hk⟩
    rw [run_succ hrun, step_fetching (hu.halted.trans hh) (hu.fetchPending_iff.2 hk)]

/-! ## Decoding what was fetched (R83, R85, R125) -/

/-- The decoder does not look at bytes past the family's length. -/
theorem decodeStage_congr {q : SubSel} {b0 b1 b2 c1 c2 : Byte} (h1 : 1 < instrLen (hiNibble b0) → b1 = c1)
    (h2 : 2 < instrLen (hiNibble b0) → b2 = c2) : decodeStage q b0 b1 b2 = decodeStage q b0 c1 c2 := by
  obtain ⟨n, rfl⟩ | ⟨n, rfl⟩ | ⟨n, rfl⟩ | ⟨k, hk, n, rfl⟩ := opcode_cases b0
  · rw [decodeStage_family0, decodeStage_family0]
  · rw [h1 (by simp [instrLen]), decodeStage_family1, decodeStage_family1]
  · rw [h1 (by simp [instrLen]), h2 (by simp [instrLen])]
  · fin_cases hk <;> simp [instrLen] at h1 h2 <;> simp [*]

/-- When LEN bytes are fetched, the staged bytes decode as the three ROM bytes at pc do. -/
theorem Fetched.decodeStaged {s u : State} (h : Fetched s (lenAtPc s) u) :
    decodeStaged u =
      decodeStage s.params.subSel (romRead s s.pc) (romRead s (s.pc + 1)) (romRead s (s.pc + 2)) := by
  have hb1 : 1 < lenAtPc s → u.stage.b1 = romRead s (s.pc + 1) := fun hlt => (h.slots 1 (by decide)).trans (if_pos hlt)
  have hb2 : 2 < lenAtPc s → u.stage.b2 = romRead s (s.pc + 2) := fun hlt => (h.slots 2 (by decide)).trans (if_pos hlt)
  rw [Machine.decodeStaged, h.params, h.opcode (instrLen_pos _)]
  exact decodeStage_congr hb1 hb2

/-- After LEN fetches the instruction at pc is at its micro-step 0. -/
theorem Fetched.executing {s u : State} {i : Instr} (h : Fetched s (lenAtPc s) u) (hidle : Idle s)
    (hd : decodeStage s.params.subSel (romRead s s.pc) (romRead s (s.pc + 1)) (romRead s (s.pc + 2)) = .ok i) :
    Executing i 0 u := by
  obtain ⟨hh, -, -, hmicro⟩ := hidle
  exact ⟨h.halted.trans hh, h.not_fetchPending, h.decodeStaged.trans hd, h.microStep.trans hmicro⟩

/-- Completing clears what the fetch had staged. -/
theorem Fetched.finish_eq {s u : State} {k : Nat} (h : Fetched s k u) (hidle : Idle s) :
    finish u = { s with pc := s.pc + BitVec.ofNat 16 k } := by
  obtain ⟨-, hcount, hstage, hmicro⟩ := hidle
  rw [h.frame]
  cases s
  cases hcount
  cases hstage
  cases hmicro
  rfl

/-- Settles O18. -/
theorem executeStepIsExecOfTheStagedInstruction : Obligations.ExecuteStepIsExecOfTheStagedInstruction :=
  fun _ _ hh hf hd => step_staged hh hf hd

theorem Executing.step_eq {i : Instr} {k : Nat} {s : State} (h : Executing i k s) : step s = exec i s := by
  obtain ⟨hh, hf, hd, -⟩ := h
  exact step_staged hh hf hd

/-- Settles O19. -/
theorem bytesAtPcAreFetchedAndExecuted : Obligations.BytesAtPcAreFetchedAndExecuted := by
  intro i s rest hidle hdecode
  obtain ⟨-, hd, -⟩ := decode_cons_eq_ok_iff.1 hdecode
  obtain ⟨u, hrun, hu⟩ := run_fetched hidle le_rfl
  have hx := hu.executing hidle hd
  exact ⟨u, hrun, hu.frame, hx, hx.step_eq⟩

/-- Settles O20. -/
theorem unrecognizedOpcodeOnlyAdvancesPc : Obligations.UnrecognizedOpcodeOnlyAdvancesPc := by
  intro s e hidle hmode hd
  obtain ⟨hh, -, -, hmicro⟩ := id hidle
  obtain ⟨u, hrun, hu⟩ := run_fetched hidle le_rfl
  have hnoop : execUnrecognized u = .next (markUnrecognized (finish u)) :=
    execUnrecognized_noop (hu.params ▸ hmode) (hu.microStep.trans hmicro)
  rw [hu.finish_eq hidle] at hnoop
  exact (run_succ hrun).trans
    ((step_unrecognized (hu.halted.trans hh) hu.not_fetchPending (hu.decodeStaged.trans hd)).trans hnoop)

/-- Settles O15: the header's three bytes are fetched and the JMP runs. -/
theorem headerJumpReachesTheEntryPoint : Obligations.HeaderJumpReachesTheEntryPoint := by
  intro s hheader
  have hlen : lenAtPc (hostReset s) = 3 := by
    show instrLen (hiNibble (romRead s 0x0000)) = 3
    rw [hheader, hiNibble_pack]
    decide
  have hd : decodeStage s.params.subSel (romRead s 0x0000) (romRead s 0x0001) (romRead s 0x0002) =
      .ok (.jmp (catBytes (romRead s 0x0001) (romRead s 0x0002))) := by
    rw [hheader]
    exact decodeStage_jmp _ _ _
  obtain ⟨u, hrun, hu⟩ := run_fetched (hostReset_idle s) le_rfl
  have hx := hu.executing (hostReset_idle s) hd
  obtain ⟨-, -, -, hmicro⟩ := id hx
  have hexec : exec (.jmp (catBytes (romRead s 0x0001) (romRead s 0x0002))) u =
      .next (setPc (catBytes (romRead s 0x0001) (romRead s 0x0002)) (finish u)) :=
    runRows_single _ _ hmicro
  rw [hu.finish_eq (hostReset_idle s)] at hexec
  rw [hlen] at hrun
  exact ⟨_, (run_succ hrun).trans (hx.step_eq.trans hexec), rfl⟩

/-! ## The execute micro-steps (R126, R132) -/

namespace Executing
variable {i : Instr} {k : Nat} {s : State} {row : State → State}

/-- A row before the last runs, and the sequencer goes on to the next. -/
theorem step_row (h : Executing i k s) (hr : (rowsOf i s)[k]? = some row) (hk : k + 1 < microSteps i) :
    step s = .next (advance (row s)) ∧ Executing i (k + 1) (advance (row s)) := by
  obtain ⟨hh, hf, hd, hmicro⟩ := id h
  have hframe := row_frame (List.mem_of_getElem? hr) s
  have hi : i ≠ .stop := by
    rintro rfl
    cases hr
  refine ⟨?_, hframe.halted.trans hh, (fetchPending_congr hframe.stage hframe.fetchCount).trans hf,
    (decodeStaged_congr hframe.stage hframe.params).trans hd,
    congrArg (· + 1) (hframe.microStep.trans hmicro)⟩
  rw [h.step_eq, exec_eq_runRows i s hi, runRows_continue hmicro hr (by rwa [rowsOf_length i s hi])]

/-- The last row runs, and the instruction completes. -/
theorem step_last_row (h : Executing i k s) (hr : (rowsOf i s)[k]? = some row) (hk : k + 1 = microSteps i) :
    step s = .next (finish (row s)) := by
  obtain ⟨-, -, -, hmicro⟩ := id h
  have hi : i ≠ .stop := by
    rintro rfl
    cases hr
  rw [h.step_eq, exec_eq_runRows i s hi, runRows_done hmicro hr (by rwa [rowsOf_length i s hi])]

theorem fetchCount_ne_zero (h : Executing i k s) : s.fetchCount ≠ 0 := by
  obtain ⟨-, hf, -, -⟩ := h
  exact fetchCount_ne_zero_of_not_fetchPending hf

/-- Every row below the count exists. -/
theorem exists_row (hi : i ≠ .stop) (hk : k < microSteps i) : ∃ row, (rowsOf i s)[k]? = some row :=
  ⟨_, List.getElem?_eq_getElem (by rwa [rowsOf_length i s hi])⟩

/-- A micro-step before the last does not complete the instruction. -/
theorem step_more (h : Executing i k s) (hk : k + 1 < microSteps i) :
    ∃ t, step s = .next t ∧ Executing i (k + 1) t := by
  have hi : i ≠ .stop := by
    rintro rfl
    exact absurd hk (by simp [microSteps])
  obtain ⟨row, hr⟩ := exists_row (s := s) hi (Nat.lt_of_succ_lt hk)
  exact ⟨_, h.step_row hr hk⟩

/-- The last micro-step leaves the block ready to fetch, or halted. -/
theorem step_last (h : Executing i k s) (hk : k + 1 = microSteps i) :
    ∃ t, step s = .next t ∧ (i ≠ .stop → Idle t) ∧ (i = .stop → t.halted = true) := by
  obtain ⟨hh, -, -, hmicro⟩ := id h
  by_cases hi : i = .stop
  · subst hi
    have hzero : k = 0 := by simpa [microSteps] using hk
    exact ⟨_, h.step_eq.trans (if_pos (hmicro.trans hzero)), fun hne => absurd rfl hne, fun _ => rfl⟩
  · obtain ⟨row, hr⟩ := exists_row (s := s) hi (Nat.lt_of_succ_le hk.le)
    have hframe := row_frame (List.mem_of_getElem? hr) s
    exact ⟨_, h.step_last_row hr hk, fun _ => finish_idle (hframe.halted.trans hh), fun he => absurd he hi⟩

end Executing

/-- As many steps as there are rows before the `k`-th bring the instruction to it. -/
theorem run_executing {i : Instr} {s : State} (h : Executing i 0 s) {k : Nat} (hk : k < microSteps i) :
    ∃ u, run k s = .next u ∧ Executing i k u := by
  induction k with
  | zero => exact ⟨s, rfl, h⟩
  | succ k ih =>
    obtain ⟨u, hrun, hu⟩ := ih (Nat.lt_of_succ_lt hk)
    obtain ⟨t, hstep, ht⟩ := hu.step_more hk
    exact ⟨t, (run_succ hrun).trans hstep, ht⟩

/-! ## An instruction's time (R277) -/

/-- With the encoding of `i` in ROM at pc, LEN is the encoding's length and the three bytes at pc decode to `i`. -/
theorem decodeStage_of_rom {i : Instr} {x : Nibble} {s : State} (hq : s.params.subSel.Distinct)
    (hrom : ∀ n b, (encodeWith s.params.subSel x i)[n]? = some b → romRead s (s.pc + BitVec.ofNat 16 n) = b) :
    lenAtPc s = (encodeWith s.params.subSel x i).length ∧
      decodeStage s.params.subSel (romRead s s.pc) (romRead s (s.pc + 1)) (romRead s (s.pc + 2)) = .ok i := by
  obtain ⟨b0, more, henc, hlen⟩ := encodeWith_head i s.params.subSel x
  rw [henc] at hrom ⊢
  have hb0 : romRead s s.pc = b0 := by simpa using hrom 0 b0 rfl
  have hmore : ∀ n, n < more.length → more.getD n 0 = romRead s (s.pc + BitVec.ofNat 16 (n + 1)) := fun n hn => by
    rw [hrom (n + 1) more[n] (by simp [hn]), List.getD_eq_getElem _ _ hn]
  have hdecode := decodeStage_encodeWith hq henc []
  rw [List.append_nil] at hdecode
  refine ⟨by rw [lenAtPc, hb0, ← hlen, List.length_cons], ?_⟩
  rw [hb0, ← hdecode]
  exact (decodeStage_congr (fun h => hmore 0 (by omega)) fun h => hmore 1 (by omega)).symm

/-- Settles O24: LEN fetches (`run_fetched`), then the rows (`run_executing`). -/
theorem instructionTakesItsStepCount : Obligations.InstructionTakesItsStepCount := by
  intro i x s hq hidle hrom
  obtain ⟨hh, -⟩ := id hidle
  obtain ⟨hlen, hd⟩ := decodeStage_of_rom hq hrom
  rw [← hlen]
  obtain ⟨u, hfetch, hu⟩ := run_fetched hidle le_rfl
  have hx := hu.executing hidle hd
  have hexec : ∀ k < microSteps i, ∃ v, run (lenAtPc s + k) s = .next v ∧ Executing i k v := fun k hk => by
    rw [run_add hfetch]
    exact run_executing hx hk
  refine ⟨?total, fun k hpos hk => ?before⟩
  case total =>
    have hlast : microSteps i - 1 + 1 = microSteps i := Nat.sub_add_cancel (microSteps_pos i)
    obtain ⟨v, hrun, hv⟩ := hexec (microSteps i - 1) (Nat.sub_lt (microSteps_pos i) Nat.one_pos)
    obtain ⟨t, hstep, hdone⟩ := hv.step_last hlast
    refine ⟨t, ?_, hdone⟩
    rw [← hlast, ← Nat.add_assoc, run_succ hrun, hstep]
  case before =>
    obtain hle | hgt := le_or_gt k (lenAtPc s)
    · obtain ⟨v, hrun, hv⟩ := run_fetched hidle hle
      refine ⟨v, hrun, hv.halted.trans hh, fun hzero => ?_⟩
      have hcount := hv.count
      simp [hzero] at hcount
      omega
    · obtain ⟨v, hrun, hv⟩ := hexec (k - lenAtPc s) (by omega)
      rw [Nat.add_sub_of_le hgt.le] at hrun
      obtain ⟨hvh, -⟩ := id hv
      exact ⟨v, hrun, hvh, hv.fetchCount_ne_zero⟩

end Sys2Proof.Machine
end

section
/-! SUPPORT. What each kind of row does, and with it the effect of each instruction, micro-step by micro-step: O36 to O57. -/

namespace Sys2Proof.Machine

/-! ## Completion and continuation after a row -/

theorem RowFrame.coreKept {s u : State} (h : RowFrame s u) : CoreKept s u :=
  ⟨h.rom, h.halted, h.params, h.unrecognizedRan⟩

theorem finish_completed (u : State) : Completed (finish u) := ⟨rfl, rfl, rfl⟩

theorem RowFrame.continued {s u : State} (h : RowFrame s u) : Continued s (advance u) :=
  ⟨h.stage, h.fetchCount, congrArg (· + 1) h.microStep⟩

/-- A last row that keeps RAM and pc. -/
theorem RowFrame.done {s u : State} (h : RowFrame s u) (hram : u.ram = s.ram) (hpc : u.pc = s.pc) :
    DoneKeepingRamPc s (finish u) :=
  ⟨ramRead_congr hram, hpc, h.coreKept, finish_completed u⟩

/-! ## The rows -/

/-- `WriteReg` as the last thing an instruction does (R29). -/
theorem regRow_done (m : Mnemonic) (d : RegIdx) (v : State → Byte) (s : State) :
    RegWrittenBy m d (v s) s (finish (regRow m d v s)) ∧ (finish (regRow m d v s)).flags = s.flags ∧
      DoneKeepingRamPc s (finish (regRow m d v s)) := by
  have hdone := (regRow_frame m d v s).done (by rw [regRow_eq]) (regRow_pc m d v s)
  rw [regRow_eq] at hdone ⊢
  exact ⟨⟨fun j => rawReg_writeReg d j (v s) s, rfl⟩, rfl, hdone⟩

/-- The row of the addition and subtraction families (R151 to R156). -/
theorem aluRow_done (m : Mnemonic) (d : RegIdx) (k : Bool) (res : State → Byte) (s : State) :
    RegWrittenBy m d (res s) s (finish (aluRow m d k res s)) ∧
      FlagsUpdated (readReg s d) (res s) k (finish (aluRow m d k res s)) ∧
      DoneKeepingRamPc s (finish (aluRow m d k res s)) := by
  have hdone := (aluRow_frame m d k res s).done (by rw [aluRow_eq]) (aluRow_pc m d k res s)
  rw [aluRow_eq] at hdone ⊢
  exact ⟨⟨fun j => rawReg_writeReg d j (res s) s, rfl⟩, flagsUpdated_of_computeFlags rfl, hdone⟩

/-- NAND's row (R158). -/
theorem nandRow_done (d a b : RegIdx) (s : State) :
    RegWrittenBy .nand d (~~~(readReg s a &&& readReg s b)) s (finish (nandRow d a b s)) ∧
      (s.params.nandSetsFlags = false → (finish (nandRow d a b s)).flags = s.flags) ∧
      (s.params.nandSetsFlags = true →
        FlagsUpdated (readReg s d) (~~~(readReg s a &&& readReg s b)) false (finish (nandRow d a b s))) ∧
      DoneKeepingRamPc s (finish (nandRow d a b s)) := by
  have hdone := (nandRow_frame d a b s).done (by rw [nandRow_eq]) (nandRow_pc d a b s)
  rw [nandRow_eq] at hdone ⊢
  exact ⟨⟨fun j => rawReg_writeReg d j (~~~(readReg s a &&& readReg s b)) s, rfl⟩,
    fun hkeep => if_neg (by simp [hkeep]), fun hset => flagsUpdated_of_computeFlags (if_pos hset), hdone⟩

/-- `RamWrite` (R57): what the row does, whatever ends it. -/
theorem ramRow_writes (m : Mnemonic) (a : State → Addr) (v : State → Byte) (s : State) :
    RamWrittenBy m (a s) (v s) s (ramRow m a v s) :=
  ⟨fun b => ramRead_ramWrite (a s) b (v s) s, rfl⟩

theorem ramRow_frame (m : Mnemonic) (a : State → Addr) (v : State → Byte) (s : State) :
    RowFrame s (ramRow m a v s) := rfl

theorem ramRow_done (m : Mnemonic) (a : State → Addr) (v : State → Byte) (s : State) :
    RamWrittenBy m (a s) (v s) s (finish (ramRow m a v s)) ∧ RegsKept s (finish (ramRow m a v s)) ∧
      (finish (ramRow m a v s)).flags = s.flags ∧ (finish (ramRow m a v s)).pc = s.pc ∧
      CoreKept s (finish (ramRow m a v s)) ∧ Completed (finish (ramRow m a v s)) :=
  ⟨ramRow_writes m a v s, fun _ => rfl, rfl, rfl, (ramRow_frame m a v s).coreKept, finish_completed _⟩

theorem ramRow_continued (m : Mnemonic) (a : State → Addr) (v : State → Byte) (s : State) :
    RamWrittenBy m (a s) (v s) s (advance (ramRow m a v s)) ∧ RegsKept s (advance (ramRow m a v s)) ∧
      (advance (ramRow m a v s)).flags = s.flags ∧ (advance (ramRow m a v s)).pc = s.pc ∧
      CoreKept s (advance (ramRow m a v s)) ∧ Continued s (advance (ramRow m a v s)) :=
  ⟨ramRow_writes m a v s, fun _ => rfl, rfl, rfl, (ramRow_frame m a v s).coreKept, (ramRow_frame m a v s).continued⟩

/-- The raw write `x[i] <- v` (R31): what the row does, whatever ends it. -/
theorem rawRow_writes (m : Mnemonic) (i : RegIdx) (v : State → Byte) (s : State) :
    RawWrittenBy m i (v s) s (rawRow m i v s) :=
  ⟨fun j => rawReg_setRaw i j (v s) s, rfl⟩

theorem rawRow_frame (m : Mnemonic) (i : RegIdx) (v : State → Byte) (s : State) : RowFrame s (rawRow m i v s) := rfl

theorem rawRow_done (m : Mnemonic) (i : RegIdx) (v : State → Byte) (s : State) :
    RawWrittenBy m i (v s) s (finish (rawRow m i v s)) ∧ (finish (rawRow m i v s)).flags = s.flags ∧
      DoneKeepingRamPc s (finish (rawRow m i v s)) :=
  ⟨rawRow_writes m i v s, rfl, (rawRow_frame m i v s).done rfl rfl⟩

theorem rawRow_continued (m : Mnemonic) (i : RegIdx) (v : State → Byte) (s : State) :
    RawWrittenBy m i (v s) s (advance (rawRow m i v s)) ∧ RamKept s (advance (rawRow m i v s)) ∧
      (advance (rawRow m i v s)).flags = s.flags ∧ (advance (rawRow m i v s)).pc = s.pc ∧
      CoreKept s (advance (rawRow m i v s)) ∧ Continued s (advance (rawRow m i v s)) :=
  ⟨rawRow_writes m i v s, fun _ => rfl, rfl, rfl, (rawRow_frame m i v s).coreKept, (rawRow_frame m i v s).continued⟩

/-- A jump's row (R200 to R204). -/
theorem jumpIf_done (c : State → Bool) (t : Addr) (s : State) :
    ((finish (jumpIf c t s)).pc = if c s = true then t else s.pc) ∧ RegsKept s (finish (jumpIf c t s)) ∧
      (finish (jumpIf c t s)).flags = s.flags ∧ RamKept s (finish (jumpIf c t s)) ∧
      SinkKept s (finish (jumpIf c t s)) ∧ CoreKept s (finish (jumpIf c t s)) ∧
      Completed (finish (jumpIf c t s)) := by
  rw [jumpIf_eq]
  exact ⟨rfl, fun _ => rfl, rfl, fun _ => rfl, rfl, ⟨rfl, rfl, rfl, rfl⟩, finish_completed _⟩

/-! ## Data processing (R151 to R159) -/

/-- Settles O36. -/
theorem addWritesSumAndFlags : Obligations.AddWritesSumAndFlags :=
  ⟨fun _ _ _ _ _ => by simp, fun _ _ _ s hzero => ⟨_, runRows_single _ s hzero, aluRow_done ..⟩⟩

/-- Settles O37. -/
theorem adcWritesSumWithCarryAndFlags : Obligations.AdcWritesSumWithCarryAndFlags :=
  ⟨fun _ _ _ _ _ => by simp, fun _ _ _ s hzero => ⟨_, runRows_single _ s hzero, aluRow_done ..⟩⟩

/-- Settles O38. -/
theorem iaddWritesSumAndFlags : Obligations.IaddWritesSumAndFlags :=
  ⟨fun _ _ _ _ _ => by simp, fun _ _ _ s hzero => ⟨_, runRows_single _ s hzero, aluRow_done ..⟩⟩

/-- Settles O39. -/
theorem subWritesDifferenceAndFlags : Obligations.SubWritesDifferenceAndFlags :=
  ⟨fun _ _ _ _ _ => by simp, fun _ _ _ s hzero => ⟨_, runRows_single _ s hzero, aluRow_done ..⟩⟩

/-- Settles O40. -/
theorem sbcWritesDifferenceWithCarryAndFlags : Obligations.SbcWritesDifferenceWithCarryAndFlags :=
  ⟨fun _ _ _ _ _ => by simp, fun _ _ _ s hzero => ⟨_, runRows_single _ s hzero, aluRow_done ..⟩⟩

/-- Settles O41. -/
theorem isubWritesDifferenceAndFlags : Obligations.IsubWritesDifferenceAndFlags :=
  ⟨fun _ _ _ _ _ => by simp, fun _ _ _ s hzero => ⟨_, runRows_single _ s hzero, aluRow_done ..⟩⟩

/-- Settles O42: the difference is 0x00 exactly if the operands are equal. -/
theorem cmpWritesFlagsOnly : Obligations.CmpWritesFlagsOnly := by
  refine ⟨fun _ _ _ _ hq => by simp [decodeStage_cmp hq], fun a b s hzero => ⟨_, runRows_single _ s hzero, ?_⟩⟩
  have hflags : FlagsUpdated (readReg s a) (readReg s a - readReg s b) false
      (finish (updateFlags (readReg s a) (readReg s a - readReg s b) false s)) := flagsUpdated_of_computeFlags rfl
  obtain ⟨hz, -⟩ := id hflags
  exact ⟨fun _ => rfl, hflags, hz.trans sub_eq_zero, rfl, rfl, fun _ => rfl, rfl, ⟨rfl, rfl, rfl, rfl⟩,
    finish_completed _⟩

/-- Settles O43. -/
theorem nandWritesComplementOfAnd : Obligations.NandWritesComplementOfAnd :=
  ⟨fun _ _ _ _ _ => by simp, fun d a b s hzero => ⟨_, runRows_single _ s hzero, nandRow_done d a b s⟩⟩

/-- Settles O44. -/
theorem immWritesTheImmediate : Obligations.ImmWritesTheImmediate :=
  ⟨fun _ _ _ _ => by simp, fun _ _ s hzero => ⟨_, runRows_single _ s hzero, regRow_done ..⟩⟩

/-! ## Loads and stores (R180 to R184) -/

/-- Settles O45. -/
theorem stoStoresAtBankAndAddress : Obligations.StoStoresAtBankAndAddress :=
  ⟨fun _ _ _ _ hq => by simp [decodeStage_sto hq], fun _ s hzero => ⟨_, runRows_single _ s hzero, ramRow_done ..⟩⟩

/-- Settles O46. -/
theorem ldromLoadsFromRom : Obligations.LdromLoadsFromRom :=
  ⟨fun _ _ _ _ => by simp, fun _ s hzero => ⟨_, runRows_single _ s hzero, regRow_done ..⟩⟩

/-- Settles O47. -/
theorem ldramLoadsFromRam : Obligations.LdramLoadsFromRam :=
  ⟨fun _ _ _ _ => by simp, fun _ s hzero => ⟨_, runRows_single _ s hzero, regRow_done ..⟩⟩

theorem stidxValue_of_embedded {s : State} (h : s.params.stidxSource = .embedded) (a : RegIdx) :
    stidxValue a s = readReg s a := by
  rw [stidxValue, h]

theorem stidxValue_of_ra {s : State} (h : s.params.stidxSource = .ra) (a : RegIdx) :
    stidxValue a s = rawReg s 0x0 := by
  rw [stidxValue, h]

/-- Settles O48: one store, of `stidxValue`. -/
theorem stidxStoresAtTheIndexedAddress : Obligations.StidxStoresAtTheIndexedAddress := by
  refine ⟨fun _ _ _ _ _ => by simp, fun a x y s hzero => ⟨_, runRows_single _ s hzero, ?_⟩⟩
  obtain ⟨hstore, hkept⟩ := ramRow_done .stidx (eaIndexed x y) (stidxValue a) s
  exact ⟨fun hsource => stidxValue_of_embedded hsource a ▸ hstore, fun hsource => stidxValue_of_ra hsource a ▸ hstore,
    hkept⟩

/-- Settles O49. -/
theorem ldidxLoadsFromTheIndexedAddress : Obligations.LdidxLoadsFromTheIndexedAddress :=
  ⟨fun _ _ _ _ _ => by simp, fun _ _ _ s hzero => ⟨_, runRows_single _ s hzero, regRow_done ..⟩⟩

/-! ## Control transfer (R200 to R205) -/

/-- Settles O50. -/
theorem jmpSetsPcToTheTarget : Obligations.JmpSetsPcToTheTarget :=
  ⟨fun _ _ _ _ => decodeStage_jmp _ _ _, fun _ s hzero =>
    ⟨_, runRows_single _ s hzero, rfl, fun _ => rfl, rfl, fun _ => rfl, rfl, ⟨rfl, rfl, rfl, rfl⟩, finish_completed _⟩⟩

/-- Settles O51. -/
theorem conditionalJumpsTestTheirFlag : Obligations.ConditionalJumpsTestTheirFlag := by
  refine ⟨fun _ _ _ hq =>
    ⟨decodeStage_jz hq _ _, decodeStage_jn hq _ _, decodeStage_jc hq _ _, decodeStage_jo hq _ _⟩,
    fun a s hzero => ?_⟩
  simp only [List.forall_mem_cons]
  exact ⟨⟨_, runRows_single _ s hzero, jumpIf_done ..⟩, ⟨_, runRows_single _ s hzero, jumpIf_done ..⟩,
    ⟨_, runRows_single _ s hzero, jumpIf_done ..⟩, ⟨_, runRows_single _ s hzero, jumpIf_done ..⟩,
    fun _ h => nomatch h⟩

/-- Settles O52. -/
theorem stopOnlySetsHalted : Obligations.StopOnlySetsHalted :=
  ⟨fun _ _ _ => decodeStage_stop _ _ _, fun _ hzero => if_pos hzero⟩

/-! ## PUSH and POP (R221, R222) -/

/-- Settles O53. -/
theorem pushMicroSteps : Obligations.PushMicroSteps :=
  ⟨fun _ _ _ _ _ => by simp, fun r _ =>
    ⟨fun hk => ⟨_, runRows_continue (rows := pushRows r) hk rfl Nat.one_lt_two, ramRow_continued ..⟩,
      fun hk => ⟨_, runRows_done (rows := pushRows r) hk rfl rfl, rawRow_done ..⟩⟩⟩

/-- Settles O54. -/
theorem popMicroSteps : Obligations.PopMicroSteps :=
  ⟨fun _ _ _ _ => by simp, fun d _ =>
    ⟨fun hk => ⟨_, runRows_continue (rows := popRows d) hk rfl Nat.one_lt_two, rawRow_continued ..⟩,
      fun hk => ⟨_, runRows_done (rows := popRows d) hk rfl rfl, regRow_done ..⟩⟩⟩

/-! ## CALL and PCALL (R223, R224) -/

section Linkage
variable (m : Mnemonic) (target : State → Addr) {s : State}

/-- A row before the seventh. -/
theorem linkage_continue {k : Nat} {row : State → State} (hk : s.microStep = k)
    (hr : (linkageRows m target)[k]? = some row) (hlt : k + 1 < 7) :
    runRows (linkageRows m target) s = .next (advance (row s)) :=
  runRows_continue hk hr hlt

/-- Rows 0, 2 and 4 of the linkage store rbp and the return address, low byte first. -/
theorem linkage_stores (hk : s.microStep ∈ [0, 2, 4]) :
    ∃ t, runRows (linkageRows m target) s = .next t ∧
      RamWrittenBy m (eaStack s) (if s.microStep = 0 then rawReg s 0xB
        else if s.microStep = 2 then lowByte s.pc else highByte s.pc) s t ∧
      RegsKept s t ∧ t.flags = s.flags ∧ t.pc = s.pc ∧ CoreKept s t ∧ Continued s t := by
  simp only [List.mem_cons, List.not_mem_nil, or_false] at hk
  obtain hk | hk | hk := hk
  all_goals
    refine ⟨_, linkage_continue m target hk rfl (by decide), ?_⟩
    rw [hk]
    exact ramRow_continued ..

/-- Rows 1, 3 and 5 of the linkage move rsp up; row 5 transfers as well. -/
theorem linkage_moves_rsp (hk : s.microStep ∈ [1, 3, 5]) :
    ∃ t, runRows (linkageRows m target) s = .next t ∧
      RawWrittenBy m 0xA (rawReg s 0xA + 1) s t ∧ (t.pc = if s.microStep = 5 then target s else s.pc) ∧
      RamKept s t ∧ t.flags = s.flags ∧ CoreKept s t ∧ Continued s t := by
  simp only [List.mem_cons, List.not_mem_nil, or_false] at hk
  obtain hk | hk | hk := hk
  all_goals
    refine ⟨_, linkage_continue m target hk rfl (by decide), ?_⟩
    rw [hk]
    exact ⟨⟨fun j => rawReg_setRaw 0xA j (rsp s + 1) s, rfl⟩, rfl, fun _ => rfl, rfl, ⟨rfl, rfl, rfl, rfl⟩,
      rfl, rfl, rfl⟩

/-- Row 6 of the linkage sets rbp to rsp and completes. -/
theorem linkage_sets_rbp (hk : s.microStep = 6) :
    ∃ t, runRows (linkageRows m target) s = .next t ∧
      RawWrittenBy m 0xB (rawReg s 0xA) s t ∧ t.flags = s.flags ∧ DoneKeepingRamPc s t :=
  ⟨_, runRows_done hk rfl rfl, rawRow_done ..⟩

end Linkage

/-- Settles O55. -/
theorem callMicroSteps : Obligations.CallMicroSteps :=
  ⟨fun _ _ _ hq => decodeStage_call hq _ _, fun a _ =>
    ⟨linkage_stores .call fun _ => a, linkage_moves_rsp .call fun _ => a, linkage_sets_rbp .call fun _ => a⟩⟩

theorem pcallTarget_of_registerPair {s : State} {hi lo : RegIdx} (h : s.params.pcallTarget = .registerPair hi lo) :
    pcallTarget s = catBytes (rawReg s hi) (rawReg s lo) := by
  rw [pcallTarget, h]

theorem pcallTarget_of_address {s : State} {a : Addr} (h : s.params.pcallTarget = .address a) :
    pcallTarget s = a := by
  rw [pcallTarget, h]

/-- Settles O56: the linkage, with the target that PCALL_TARGET names in row 5. -/
theorem pcallMicroSteps : Obligations.PcallMicroSteps := by
  refine ⟨fun _ _ _ hq => decodeStage_pcall hq _ _, fun s =>
    ⟨linkage_stores .pcall pcallTarget, fun hk => ?_, linkage_sets_rbp .pcall pcallTarget⟩⟩
  obtain ⟨t, hexec, hrsp, hpc, hkept⟩ := linkage_moves_rsp .pcall pcallTarget hk
  have hpc5 : s.microStep = 5 → t.pc = pcallTarget s := fun h5 => hpc.trans (if_pos h5)
  exact ⟨t, hexec, hrsp, fun hne => hpc.trans (if_neg hne),
    fun _ _ h5 hpair => (hpc5 h5).trans (pcallTarget_of_registerPair hpair),
    fun _ h5 haddr => (hpc5 h5).trans (pcallTarget_of_address haddr), hkept⟩

/-! ## RET (R225) -/

/-- Rows 0, 2 and 4 of RET set rsp, from rbp first and then one down. -/
theorem ret_moves_rsp {s : State} (hk : s.microStep ∈ [0, 2, 4]) :
    ∃ t, exec .ret s = .next t ∧
      RawWrittenBy .ret 0xA ((if s.microStep = 0 then rawReg s 0xB else rawReg s 0xA) - 1) s t ∧
      RamKept s t ∧ t.flags = s.flags ∧ t.pc = s.pc ∧ CoreKept s t ∧ Continued s t := by
  simp only [List.mem_cons, List.not_mem_nil, or_false] at hk
  obtain hk | hk | hk := hk
  all_goals
    refine ⟨_, runRows_continue (rows := retRows) hk rfl (by decide), ?_⟩
    rw [hk]
    exact rawRow_continued ..

/-- Rows 1 and 3 of RET load the halves of pc, the high one first (D13). -/
theorem ret_loads_pc {s : State} (hk : s.microStep ∈ [1, 3]) :
    ∃ t, exec .ret s = .next t ∧
      (t.pc = if s.microStep = 1 then catBytes (ramRead s (eaStack s)) (lowByte s.pc)
        else catBytes (highByte s.pc) (ramRead s (eaStack s))) ∧
      SinkGets .ret (some ⟨if s.microStep = 1 then .pcHigh else .pcLow, ramRead s (eaStack s)⟩) s t ∧
      RegsKept s t ∧ RamKept s t ∧ t.flags = s.flags ∧ CoreKept s t ∧ Continued s t := by
  simp only [List.mem_cons, List.not_mem_nil, or_false] at hk
  obtain hk | hk := hk
  all_goals
    refine ⟨_, runRows_continue (rows := retRows) hk rfl (by decide), ?_⟩
    rw [hk]
    exact ⟨rfl, rfl, fun _ => rfl, fun _ => rfl, rfl, ⟨rfl, rfl, rfl, rfl⟩, rfl, rfl, rfl⟩

/-- Settles O57. -/
theorem retMicroSteps : Obligations.RetMicroSteps :=
  ⟨fun _ _ _ hq => decodeStage_ret hq _ _, fun _ =>
    ⟨ret_moves_rsp, ret_loads_pc,
      fun hk => ⟨_, runRows_done (rows := retRows) hk rfl rfl, rawRow_done ..⟩⟩⟩

end Sys2Proof.Machine
end

section
/-! SUPPORT. CALL, PCALL and RET as wholes, from their rows in pairs: O58, O59, O60. -/

namespace Sys2Proof.Machine

/-! ## What a row of CALL, PCALL or RET leaves alone -/

/-- The flags, the core, and the sink's trace where SINK_TRIGGER is none. -/
def StackKept (s u : State) : Prop :=
  u.flags = s.flags ∧ CoreKept s u ∧ (s.params.sinkTrigger = .none → SinkKept s u)

theorem CoreKept.trans {s t u : State} (hst : CoreKept s t) (htu : CoreKept t u) : CoreKept s u := by
  obtain ⟨hrom, hhalted, hparams, hmark⟩ := hst
  obtain ⟨hrom', hhalted', hparams', hmark'⟩ := htu
  exact ⟨hrom'.trans hrom, hhalted'.trans hhalted, hparams'.trans hparams, hmark'.trans hmark⟩

theorem CoreKept.params {s t : State} (h : CoreKept s t) : t.params = s.params := by
  obtain ⟨-, -, hparams, -⟩ := h
  exact hparams

theorem StackKept.trans {s t u : State} (hst : StackKept s t) (htu : StackKept t u) : StackKept s u := by
  obtain ⟨hflags, hcore, hsink⟩ := hst
  obtain ⟨hflags', hcore', hsink'⟩ := htu
  exact ⟨hflags'.trans hflags, hcore.trans hcore', fun hnone =>
    (hsink' (hcore.params ▸ hnone)).trans (hsink hnone)⟩

/-- Under the trigger none the sink gets nothing. -/
theorem SinkGets.kept {m : Mnemonic} {w : Option Write} {s t : State} (h : SinkGets m w s t)
    (hnone : s.params.sinkTrigger = .none) : SinkKept s t := by
  rw [SinkKept, h, sinkCall_of_none hnone, List.append_nil]

/-- A micro-step that keeps the flags and the core keeps what StackKept asks for, whatever it hands to the sink. -/
theorem StackKept.of_gets {m : Mnemonic} {w : Option Write} {s t : State} (hflags : t.flags = s.flags)
    (hcore : CoreKept s t) (hsink : SinkGets m w s t) : StackKept s t :=
  ⟨hflags, hcore, hsink.kept⟩

/-- `continue` goes on to the next row. -/
theorem Executing.continued {i : Instr} {k : Nat} {s t : State} (h : Executing i k s) (hcore : CoreKept s t)
    (hcont : Continued s t) : Executing i (k + 1) t := by
  obtain ⟨hh, hf, hd, hmicro⟩ := h
  obtain ⟨-, hhalted, hparams, -⟩ := hcore
  obtain ⟨hstage, hcount, hnext⟩ := hcont
  exact ⟨hhalted.trans hh, (fetchPending_congr hstage hcount).trans hf, (decodeStaged_congr hstage hparams).trans hd,
    hnext.trans (congrArg (· + 1) hmicro)⟩

/-! ## Addresses of the stack -/

theorem stackAddr_inj {x y : Byte} : catBytes 0xFF#8 x = catBytes 0xFF#8 y ↔ x = y :=
  ⟨fun h => (catBytes_inj h).2, fun h => h ▸ rfl⟩

/-- Three bytes in a row have three addresses, wherever the stack wraps. -/
theorem stackAddrs_distinct (r : Byte) :
    catBytes 0xFF r ≠ catBytes 0xFF (r + 1) ∧ catBytes 0xFF r ≠ catBytes 0xFF (r + 2) ∧
      catBytes 0xFF (r + 1) ≠ catBytes 0xFF (r + 2) := by
  simp [stackAddr_inj]

/-! ## The linkage, a pushed byte at a time (R223, R224) -/

/-- `u` is `s` with the byte `v` pushed. -/
def Pushed (v : Byte) (s u : State) : Prop :=
  RamWritten (catBytes 0xFF (rawReg s 0xA)) v s u ∧ RawWritten 0xA (rawReg s 0xA + 1) s u ∧ StackKept s u

section Linkage
variable {i : Instr} {m : Mnemonic} {target : State → Addr}
  (hi : ∀ u, exec i u = runRows (linkageRows m target) u)
include hi

/-- A store and the increment after it push a byte; the last increment transfers as well, to the target as it is in a
state `t` with the registers and the parameters of `s`. -/
theorem linkage_pushes {k : Nat} {s : State} (hx : Executing i k s) (hk : k ∈ [0, 2, 4]) :
    ∃ t u, run 2 s = .next u ∧ RegsKept s t ∧ t.params = s.params ∧
      Pushed (if k = 0 then rawReg s 0xB else if k = 2 then lowByte s.pc else highByte s.pc) s u ∧
      (u.pc = if k = 4 then target t else s.pc) ∧ Executing i (k + 2) u := by
  obtain ⟨-, -, -, rfl⟩ := id hx
  obtain ⟨t, hstep, ⟨hram, hsink⟩, hregs, hflags, hpc, hcore, hcont⟩ := linkage_stores m target hk
  have hxt := hx.continued hcore hcont
  obtain ⟨-, -, -, hmicro⟩ := id hxt
  have hk' : t.microStep ∈ [1, 3, 5] := by
    simp only [hmicro, List.mem_cons, List.not_mem_nil, or_false] at hk ⊢
    omega
  obtain ⟨u, hstep', ⟨hregs', hsink'⟩, hpc', hram', hflags', hcore', hcont'⟩ := linkage_moves_rsp m target hk'
  refine ⟨t, u, ?run, hregs, hcore.params, ⟨?ram, ?regs, ?kept⟩, ?pc, hxt.continued hcore' hcont'⟩
  case run =>
    rw [run_succ_of_next (hx.step_eq.trans ((hi s).trans hstep)), run_one, hxt.step_eq, hi, hstep']
  case ram => exact fun b => (hram' b).trans (hram b)
  case regs =>
    intro j
    rw [hregs' j, hregs j, hregs 0xA]
  case kept => exact (StackKept.of_gets hflags hcore hsink).trans (.of_gets hflags' hcore' hsink')
  case pc =>
    rw [hpc', hpc, hmicro]
    simp

/-- The whole linkage: three bytes pushed, rbp set to rsp, pc at the target as it is in a state `v` that differs from
`s` in rsp at most. -/
theorem linkage_run {s : State} (hx : Executing i 0 s) :
    ∃ v t, run 7 s = .next t ∧ (∀ j, j ≠ 0xA → rawReg v j = rawReg s j) ∧ v.params = s.params ∧ t.pc = target v ∧
      (∀ b, ramRead t b =
        if b = catBytes 0xFF (rawReg s 0xA) then rawReg s 0xB
        else if b = catBytes 0xFF (rawReg s 0xA + 1) then lowByte s.pc
        else if b = catBytes 0xFF (rawReg s 0xA + 2) then highByte s.pc
        else ramRead s b) ∧
      (∀ j, rawReg t j = if j = 0xA ∨ j = 0xB then rawReg s 0xA + 3 else rawReg s j) ∧
      StackKept s t ∧ Completed t := by
  obtain ⟨v₁, u₁, hrun₁, -, -, ⟨hram₁, hregs₁, hkept₁⟩, hpc₁, hx₁⟩ := linkage_pushes hi hx (by decide)
  obtain ⟨v₂, u₂, hrun₂, -, -, ⟨hram₂, hregs₂, hkept₂⟩, hpc₂, hx₂⟩ := linkage_pushes hi hx₁ (by decide)
  obtain ⟨v, u₃, hrun₃, hv, hvparams, ⟨hram₃, hregs₃, hkept₃⟩, hpc₃, hx₃⟩ := linkage_pushes hi hx₂ (by decide)
  obtain ⟨-, -, -, hmicro⟩ := id hx₃
  obtain ⟨t, hstep, ⟨hregs, hsink⟩, hflags, hram, hpc, hcore, hdone⟩ := linkage_sets_rbp m target hmicro
  have hkept := (hkept₁.trans hkept₂).trans hkept₃
  have hkept' : StackKept u₃ t := .of_gets hflags hcore hsink
  have hrsp₁ : rawReg u₁ 0xA = rawReg s 0xA + 1 := hregs₁ 0xA
  have hrsp₂ : rawReg u₂ 0xA = rawReg s 0xA + 2 := by
    rw [hregs₂ 0xA, if_pos rfl, hrsp₁, BitVec.add_assoc]
    rfl
  have hrsp₃ : rawReg u₃ 0xA = rawReg s 0xA + 3 := by
    rw [hregs₃ 0xA, if_pos rfl, hrsp₂, BitVec.add_assoc]
    rfl
  refine ⟨v, t, ?run, fun j hj => ?target, ?params, ?pc, fun b => ?ram, fun j => ?regs, hkept.trans hkept', hdone⟩
  case run =>
    rw [run_add hrun₁ 5, run_add hrun₂ 3, run_add hrun₃ 1, run_one, hx₃.step_eq, hi, hstep]
  case target => rw [hv j, hregs₂ j, if_neg hj, hregs₁ j, if_neg hj]
  case params =>
    obtain ⟨-, hcore₁₂, -⟩ := hkept₁.trans hkept₂
    exact hvparams.trans hcore₁₂.params
  case pc => exact hpc.trans hpc₃
  case ram =>
    obtain ⟨h01, h02, h12⟩ := stackAddrs_distinct (rawReg s 0xA)
    have hpc₂' : u₂.pc = s.pc := hpc₂.trans hpc₁
    rw [hram b, hram₃ b, hram₂ b, hram₁ b, hrsp₂, hrsp₁, hpc₂', hpc₁]
    grind
  case regs =>
    rw [hregs j, hregs₃ j, hregs₂ j, hregs₁ j, hrsp₃, hrsp₂, hrsp₁]
    grind

end Linkage

/-- The linkage of CALL and PCALL runs `linkageRows`. -/
theorem exec_eq_linkageRows {i : Instr} (hi : i = .pcall ∨ ∃ a, i = .call a) :
    ∃ m target, ∀ u, exec i u = runRows (linkageRows m target) u := by
  obtain rfl | ⟨a, rfl⟩ := hi
  · exact ⟨.pcall, pcallTarget, fun _ => rfl⟩
  · exact ⟨.call, fun _ => a, fun _ => rfl⟩

/-- Settles O58: the linkage, with PCALL's target in registers that it does not move. -/
theorem callStoresTheLinkageAndTransfers : Obligations.CallStoresTheLinkageAndTransfers := by
  rintro i target s hx (rfl | ⟨rfl, hpair, rfl⟩)
  · obtain ⟨v, t, hrun, -, -, hpc, hram, hregs, ⟨hflags, hcore, hsink⟩, hdone⟩ :=
      linkage_run (m := .call) (target := fun _ => target) (fun _ => rfl) hx
    exact ⟨t, hrun, hpc, hram, hregs, hsink, hflags, hcore, hdone⟩
  · obtain ⟨v, t, hrun, hv, hparams, hpc, hram, hregs, ⟨hflags, hcore, hsink⟩, hdone⟩ :=
      linkage_run (m := .pcall) (target := pcallTarget) (fun _ => rfl) hx
    refine ⟨t, hrun, ?_, hram, hregs, hsink, hflags, hcore, hdone⟩
    rw [hpc, pcallTarget_of_registerPair (hparams ▸ hpair), hv 0xE (by decide), hv 0xF (by decide)]

/-! ## RET, a byte of the frame at a time (R225) -/

/-- `u` is `s` with rsp set to `r`. -/
def RspMoved (r : Byte) (s u : State) : Prop := RawWritten 0xA r s u ∧ RamKept s u ∧ StackKept s u

/-- Rows 0 and 1, or 2 and 3, of RET: rsp is moved and the byte at 0xFF:rsp goes into one half of pc. -/
theorem ret_pops_pc {k : Nat} {s : State} {r : Byte} (hx : Executing .ret k s) (hk : k ∈ [0, 2])
    (hr : r = (if k = 0 then rawReg s 0xB else rawReg s 0xA) - 1) :
    ∃ u, run 2 s = .next u ∧ RspMoved r s u ∧
      (u.pc = if k = 0 then catBytes (ramRead s (catBytes 0xFF r)) (lowByte s.pc)
        else catBytes (highByte s.pc) (ramRead s (catBytes 0xFF r))) ∧
      Executing .ret (k + 2) u := by
  obtain ⟨-, -, -, rfl⟩ := id hx
  have hk₀ : s.microStep ∈ [0, 2, 4] := by
    simp only [List.mem_cons, List.not_mem_nil, or_false] at hk ⊢
    omega
  obtain ⟨t, hstep, ⟨hregs, hsink⟩, hram, hflags, hpc, hcore, hcont⟩ := ret_moves_rsp hk₀
  rw [← hr] at hregs hsink
  have hxt := hx.continued hcore hcont
  obtain ⟨-, -, -, hmicro⟩ := id hxt
  have hk₁ : t.microStep ∈ [1, 3] := by
    simp only [hmicro, List.mem_cons, List.not_mem_nil, or_false] at hk ⊢
    omega
  obtain ⟨u, hstep', hpc', hsink', hregs', hram', hflags', hcore', hcont'⟩ := ret_loads_pc hk₁
  refine ⟨u, ?run, ⟨?regs, ?ram, ?kept⟩, ?pc, hxt.continued hcore' hcont'⟩
  case run => rw [run_succ_of_next (hx.step_eq.trans hstep), run_one, hxt.step_eq, hstep']
  case regs => exact fun j => (hregs' j).trans (hregs j)
  case ram => exact fun b => (hram' b).trans (hram b)
  case kept => exact (StackKept.of_gets hflags hcore hsink).trans (.of_gets hflags' hcore' hsink')
  case pc =>
    have hstack : eaStack t = catBytes 0xFF r := congrArg (catBytes 0xFF) ((hregs 0xA).trans (if_pos rfl))
    rw [hpc', hstack, hram, hpc, hmicro]
    simp

/-- Rows 4 and 5 of RET: rsp is moved once more and rbp gets the byte at 0xFF:rsp. -/
theorem ret_pops_rbp {s : State} (hx : Executing .ret 4 s) :
    ∃ u, run 2 s = .next u ∧
      (∀ j, rawReg u j = if j = 0xA then rawReg s 0xA - 1
        else if j = 0xB then ramRead s (catBytes 0xFF (rawReg s 0xA - 1)) else rawReg s j) ∧
      RamKept s u ∧ u.pc = s.pc ∧ StackKept s u ∧ Completed u := by
  obtain ⟨-, -, -, hmicro⟩ := id hx
  obtain ⟨t, hstep, ⟨hregs, hsink⟩, hram, hflags, hpc, hcore, hcont⟩ :=
    ret_moves_rsp (s := s) (by rw [hmicro]; decide)
  rw [hmicro, if_neg (by decide)] at hregs hsink
  have hxt := hx.continued hcore hcont
  obtain ⟨-, -, -, hmicro'⟩ := id hxt
  have hstep' : step t = .next (finish (rawRow .ret 0xB (fun s => ramRead s (eaStack s)) t)) :=
    hxt.step_last_row rfl rfl
  obtain ⟨⟨hregs', hsink'⟩, hflags', hram', hpc', hcore', hdone⟩ :=
    rawRow_done .ret 0xB (fun s => ramRead s (eaStack s)) t
  have hstack : eaStack t = catBytes 0xFF (rawReg s 0xA - 1) :=
    congrArg (catBytes 0xFF) ((hregs 0xA).trans (if_pos rfl))
  refine ⟨_, ?run, fun j => ?regs, fun b => (hram' b).trans (hram b), hpc'.trans hpc, ?kept, hdone⟩
  case run => rw [run_succ_of_next (hx.step_eq.trans hstep), run_one, hstep']
  case regs =>
    rw [hregs' j, hregs j, hstack, hram]
    grind
  case kept => exact (StackKept.of_gets hflags hcore hsink).trans (.of_gets hflags' hcore' hsink')

/-- Settles O59: the three bytes of the frame, popped one after the other. -/
theorem retRestoresFromTheFrame : Obligations.RetRestoresFromTheFrame := by
  intro s hx
  obtain ⟨u₁, hrun₁, ⟨hregs₁, hram₁, hkept₁⟩, hpc₁, hx₁⟩ := ret_pops_pc (r := rawReg s 0xB - 1) hx (by decide) rfl
  have hrsp₁ : rawReg u₁ 0xA = rawReg s 0xB - 1 := hregs₁ 0xA
  have hr : rawReg s 0xB - 2 = rawReg u₁ 0xA - 1 := by
    rw [hrsp₁]
    bv_omega
  obtain ⟨u₂, hrun₂, ⟨hregs₂, hram₂, hkept₂⟩, hpc₂, hx₂⟩ := ret_pops_pc (r := rawReg s 0xB - 2) hx₁ (by decide) hr
  obtain ⟨t, hrun₃, hregs₃, hram₃, hpc₃, hkept₃, hdone⟩ := ret_pops_rbp hx₂
  have hrsp₂ : rawReg u₂ 0xA - 1 = rawReg s 0xB - 3 := by
    rw [hregs₂ 0xA, if_pos rfl]
    bv_omega
  obtain ⟨hflags, hcore, hsink⟩ := (hkept₁.trans hkept₂).trans hkept₃
  refine ⟨t, ?run, ?pc, fun j => ?regs, hsink, fun b => ?ram, hflags, hcore, hdone⟩
  case run => rw [run_add hrun₁ 4, run_add hrun₂ 2, hrun₃]
  case pc =>
    rw [hpc₃, hpc₂, hpc₁, hram₁]
    simp
  case regs =>
    rw [hregs₃ j, hrsp₂, hregs₂ j, hregs₁ j, hram₂, hram₁]
    grind
  case ram => rw [hram₃ b, hram₂ b, hram₁ b]

/-- Settles O60: RET reads rbp and the return address from where the linkage left them. -/
theorem retUndoesItsCall : Obligations.RetUndoesItsCall := by
  intro i s t u hi hx hcall hret hrbp hframe
  obtain ⟨m, target, hexec⟩ := exec_eq_linkageRows hi
  obtain ⟨-, t', hrun, -, -, -, hram, hregs, -, -⟩ := linkage_run hexec hx
  cases hcall.symm.trans hrun
  obtain ⟨w, hrun', hpc, hregs', -⟩ := retRestoresFromTheFrame u hret
  obtain ⟨h01, h02, h12⟩ := stackAddrs_distinct (rawReg s 0xA)
  have hrbp' : rawReg u 0xB = rawReg s 0xA + 3 := hrbp.trans (hregs 0xB)
  have hsaved : ramRead u (catBytes 0xFF (rawReg s 0xA)) = rawReg s 0xB := by
    have hk := hframe 0 (by decide)
    rwa [add_zero, hram, if_pos rfl] at hk
  have hlow : ramRead u (catBytes 0xFF (rawReg s 0xA + 1)) = lowByte s.pc := by
    rw [hframe 1 (by decide), hram, if_neg h01.symm, if_pos rfl]
  have hhigh : ramRead u (catBytes 0xFF (rawReg s 0xA + 2)) = highByte s.pc := by
    rw [hframe 2 (by decide), hram, if_neg h02.symm, if_neg h12.symm, if_pos rfl]
  have hone : rawReg u 0xB - 1 = rawReg s 0xA + 2 := by
    rw [hrbp']
    bv_omega
  have htwo : rawReg u 0xB - 2 = rawReg s 0xA + 1 := by
    rw [hrbp']
    bv_omega
  have hthree : rawReg u 0xB - 3 = rawReg s 0xA := by
    rw [hrbp']
    bv_omega
  rw [hone, htwo, hhigh, hlow, cat_high_low] at hpc
  exact ⟨w, hrun', hpc, (hregs' 0xA).trans hthree, (hregs' 0xB).trans (hthree ▸ hsaved)⟩

end Sys2Proof.Machine
end
